-- ==== Sys2Proof/Word.lean ====
section
/-! DEFINITION. The value types of the core, each of the width spec/00_scope.md R7 gives it. Every value is unsigned
(R10, spec/10_state.md R32). -/

namespace Sys2Proof

/-- One of the four 4-bit instruction fields n0 .. n3 (spec/30_encoding.md R56). -/
abbrev Nibble := BitVec 4

/-- A byte of memory, a general register, SP, DT, ST, or an 8-bit immediate nn. -/
abbrev Byte := BitVec 8

/-- A 16-bit value: an instruction word W, I or PC. -/
abbrev Word := BitVec 16

/-- A byte index into MEM, or a 12-bit nnn: `ADDR_W` of R7. Every value names a byte that exists. -/
abbrev Addr := BitVec 12

/-- The number of a general register, 0 to 15 (spec/10_state.md R18). -/
abbrev RegIdx := Fin 16

/-- The sprite height n, 0 to 15 (spec/30_encoding.md R58). -/
abbrev Height := Fin 16

/-- A pixel: `false` is unset (0, black), `true` is set (1, white); spec/10_state.md R30, log 13. -/
abbrev Pixel := Bool

/-- A display row index (spec/10_state.md R31). -/
abbrev Row := Fin 32

/-- A display column index (spec/10_state.md R31). -/
abbrev Col := Fin 64

/-- The display, row-major: 32 rows of 64 pixels (spec/10_state.md R30). -/
abbrev Display := Vector (Vector Pixel 64) 32

/-- The frame a step returns: a copy of the whole display (spec/40_cycle.md R72). -/
abbrev Frame := Display

/-- The display with every pixel unset (spec/10_state.md R30). -/
def Display.blank : Display := Vector.replicate 32 (Vector.replicate 64 false)

end Sys2Proof
end

