-- ==== Sys2Proof/Syntax.lean ====
section
/-! DEFINITION. The instructions: one constructor per row of spec/opcode_table.json. -/

namespace Sys2Proof

/-- The seven supported patterns of spec/30_encoding.md R57 and the default arm of R60. -/
inductive Instr where
  /-- `NOP`, 0x0000 (spec/41_control_arith.md R79). -/
  | nop
  /-- `CLS`, 0x00E0 (spec/42_display.md R87). -/
  | cls
  /-- `JP nnn`, 0x1nnn (spec/41_control_arith.md R80). -/
  | jp (nnn : Addr)
  /-- `LD Vx, nn`, 0x6xnn (spec/41_control_arith.md R81). -/
  | ldVImm (x : RegIdx) (nn : Byte)
  /-- `ADD Vx, nn`, 0x7xnn (spec/41_control_arith.md R82). -/
  | addVImm (x : RegIdx) (nn : Byte)
  /-- `LD I, nnn`, 0xAnnn (spec/41_control_arith.md R83). -/
  | ldI (nnn : Addr)
  /-- `DRW Vx, Vy, n`, 0xDxyn (spec/42_display.md R89). -/
  | drw (x y : RegIdx) (n : Height)
  /-- `.word 0xWWWW`: any word that no supported pattern matches (spec/40_cycle.md R74, spec/30_encoding.md R60). -/
  | defaultNop (w : Word)
  deriving DecidableEq, Repr

end Sys2Proof
end

