-- ==== Sys2Proof/WellFormed.lean ====
section
/-! DEFINITION. When an instruction is one that some word encodes. The operand fields are as wide as their encodings, so
the one check left is that a default-arm word is none of the seven supported words (spec/30_encoding.md R60, R66). -/

namespace Sys2Proof

/-- The mask and match pairs of the seven supported patterns, in the order of spec/30_encoding.md R59. -/
def supportedPatterns : List (Word × Word) :=
  [(0xFFFF, 0x0000), (0xFFFF, 0x00E0), (0xF000, 0x1000), (0xF000, 0x6000), (0xF000, 0x7000), (0xF000, 0xA000),
   (0xF000, 0xD000)]

/-- "A word matches a row when `(W & mask) == match`" (spec/30_encoding.md R66). -/
def matchesPattern (w : Word) (row : Word × Word) : Bool := w &&& row.1 == row.2

/-- Some supported pattern matches the word. -/
def isSupported (w : Word) : Bool := supportedPatterns.any (matchesPattern w)

/-- The instruction is the reading of some word: the default arm holds only words no supported pattern matches. -/
def Instr.wf : Instr → Bool
  | .nop => true
  | .cls => true
  | .jp _ => true
  | .ldVImm _ _ => true
  | .addVImm _ _ => true
  | .ldI _ => true
  | .drw _ _ _ => true
  | .defaultNop w => !isSupported w

end Sys2Proof
end

