-- ==== Sys2Proof/Decode.lean ====
section
/-! DEFINITION. From bytes to instructions and back: the field split of spec/40_cycle.md R69, the dispatch of R70 as the
choice of a constructor, and the encoder. -/

namespace Sys2Proof

/-- The four fields of an instruction, the dispatch key (spec/30_encoding.md R56). -/
structure Fields where
  n0 : Nibble
  n1 : Nibble
  n2 : Nibble
  n3 : Nibble
  deriving DecidableEq, Repr

/-- b[7:4]. -/
def highNibble (b : Byte) : Nibble := b.extractLsb' 4 4

/-- b[3:0]. -/
def lowNibble (b : Byte) : Nibble := b.extractLsb' 0 4

/-- W[15:8], the first fetched byte b1 (spec/30_encoding.md R54). -/
def highByte (w : Word) : Byte := w.extractLsb' 8 8

/-- W[7:0], the second fetched byte b2 (spec/30_encoding.md R54). -/
def lowByte (w : Word) : Byte := w.extractLsb' 0 8

/-- The word W = (b1 << 8) | b2 (spec/30_encoding.md R54, spec/20_memory.md R38). -/
def wordOf (b1 b2 : Byte) : Word := b1 ++ b2

/-- `decode(b1, b2)` of spec/40_cycle.md R69: reads no state and never fails. -/
def splitFields (b1 b2 : Byte) : Fields :=
  { n0 := highNibble b1, n1 := lowNibble b1, n2 := highNibble b2, n3 := lowNibble b2 }

/-- The register number, or sprite height, a 4-bit field names: every value names one (spec/30_encoding.md R58). -/
def indexOf (k : Nibble) : Fin 16 := ⟨k.toNat, k.isLt⟩

/-- nn = (n2 << 4) | n3 (spec/30_encoding.md R56). -/
def immOf (n2 n3 : Nibble) : Byte := n2 ++ n3

/-- nnn = (n1 << 8) | (n2 << 4) | n3 (spec/30_encoding.md R56). -/
def addrOf (n1 n2 n3 : Nibble) : Addr := (n1 ++ n2 : Byte) ++ n3

/-- The word that four fields make up (spec/00_scope.md R14). -/
def Fields.word (f : Fields) : Word := wordOf (immOf f.n0 f.n1) (immOf f.n2 f.n3)

/-- The one supported pattern of spec/30_encoding.md R57 that matches the dispatch key, or the default arm of R60 when
none does. -/
def dispatch (f : Fields) : Instr :=
  if f.n0 = 0x0 ∧ f.n1 = 0x0 ∧ f.n2 = 0x0 ∧ f.n3 = 0x0 then .nop
  else if f.n0 = 0x0 ∧ f.n1 = 0x0 ∧ f.n2 = 0xE ∧ f.n3 = 0x0 then .cls
  else if f.n0 = 0x1 then .jp (addrOf f.n1 f.n2 f.n3)
  else if f.n0 = 0x6 then .ldVImm (indexOf f.n1) (immOf f.n2 f.n3)
  else if f.n0 = 0x7 then .addVImm (indexOf f.n1) (immOf f.n2 f.n3)
  else if f.n0 = 0xA then .ldI (addrOf f.n1 f.n2 f.n3)
  else if f.n0 = 0xD then .drw (indexOf f.n1) (indexOf f.n2) (indexOf f.n3)
  else .defaultNop f.word

/-- The instruction two fetched bytes stand for. Total: "any 4-tuple is a legal dispatch key" (spec/30_encoding.md R55). -/
def decode (b1 b2 : Byte) : Instr := dispatch (splitFields b1 b2)

/-- The instruction a word stands for. -/
def decodeWord (w : Word) : Instr := decode (highByte w) (lowByte w)

/-- Why a list of bytes holds no instruction. A step never meets this: it always fetches two bytes. -/
inductive DecodeError where
  /-- Fewer than the two bytes every instruction has (spec/30_encoding.md R53). -/
  | truncated
  deriving DecidableEq, Repr

/-- The first instruction of a list of bytes, and the bytes after it (spec/30_encoding.md R53, R63). -/
def decodeBytes : List Byte → Except DecodeError (Instr × List Byte)
  | b1 :: b2 :: rest => .ok (decode b1 b2, rest)
  | _ => .error .truncated

/-- The 4-bit field that holds an index. -/
def fieldOf (k : Fin 16) : Nibble := BitVec.ofNat 4 k.val

/-- The word of an instruction, read off the `encoding` strings of spec/opcode_table.json (spec/30_encoding.md R66). -/
def encodeWord : Instr → Word
  | .nop => 0x0000
  | .cls => 0x00E0
  | .jp nnn => (0x1 : Nibble) ++ nnn
  | .ldVImm x nn => ((0x6 : Nibble) ++ fieldOf x : Byte) ++ nn
  | .addVImm x nn => ((0x7 : Nibble) ++ fieldOf x : Byte) ++ nn
  | .ldI nnn => (0xA : Nibble) ++ nnn
  | .drw x y n => ((0xD : Nibble) ++ fieldOf x : Byte) ++ (fieldOf y ++ fieldOf n : Byte)
  | .defaultNop w => w

/-- The two bytes of an instruction as memory holds them, the high byte at the lower address (spec/20_memory.md R38). -/
def encode (i : Instr) : List Byte := [highByte (encodeWord i), lowByte (encodeWord i)]

/-- The bytes of a table word: its low nbits bits as a 16-bit word, high byte first, every other bit 0 (log 14). -/
def tableBytes (nbits w : Nat) : List Byte :=
  [highByte (BitVec.ofNat 16 (w % 2 ^ nbits)), lowByte (BitVec.ofNat 16 (w % 2 ^ nbits))]

/-- The instruction the decoder reads from a table word of nbits bits; none above 16 bits, which no instruction has
(spec/30_encoding.md R53; log 14). -/
def decodeTableWord (nbits w : Nat) : Option Instr :=
  if nbits ≤ 16 then
    match decodeBytes (tableBytes nbits w) with
    | .ok (i, _) => some i
    | .error _ => none
  else none

end Sys2Proof
end

