-- ==== Sys2Proof/Config.lean ====
section
/-! DEFINITION. What the environment fixes for one machine (spec/00_scope.md R8). The key input's type, R8 (b), is a type
parameter of Machine/Port.lean; the sprite address beyond 0xFFF, R8 (c), is decided by the spec (Machine/Operands.lean). -/

namespace Sys2Proof

/-- `cadence_period` of R8 (a): the constant period at which the harness calls the step (spec/70_reset_and_hazards.md
R123). OPEN: the spec gives no value and no rule reads it, so it has no body here. DESIGN CHOICE: a natural number of
an unnamed unit (log 6). -/
opaque Config.cadencePeriod : Nat

/-- `LOAD_BASE` of spec/00_scope.md R7: where the program image goes, which is also the entry point. -/
abbrev Config.loadBase : Nat := 0x200

/-- `MAX_IMAGE` of spec/00_scope.md R7: the most bytes an image may have, 4096 - 0x200. -/
abbrev Config.maxImage : Nat := 3584

end Sys2Proof
end

