-- ==== Sys2Proof/Machine/State.lean ====
section
/-! DEFINITION. The machine's state, spec/10_state.md R35, as plain data; its reset value; why the machine can stop. -/

namespace Sys2Proof.Machine

/-- MEM of spec/10_state.md R29 as (address, byte) pairs. Canonical form: addresses rising strictly, each below 4096, and
no pair holding 0, which is what an unlisted address reads as. -/
abbrev Memory := List Host.Cell

/-- The part of the canonical form that speaks of the pairs from address `lo` on. -/
def Memory.wfFrom (lo : Nat) : Memory → Bool
  | [] => true
  | (a, b) :: rest => lo ≤ a && a < 4096 && b != 0 && wfFrom (a + 1) rest

/-- The memory is in canonical form. -/
def Memory.wf (m : Memory) : Bool := Memory.wfFrom 0 m

/-- Why the machine stops with an error. No step of the core raises any (spec/40_cycle.md R73, spec/60_exceptions.md R94). -/
inductive Fault where
  /-- The fatal load-time condition of spec/70_reset_and_hazards.md R115: the program image has more than 3584 bytes.
  Raised by `load`, before any step, never by `step`. Safe: no state is handed over (D18). -/
  | imageTooLong
  deriving DecidableEq, Repr

/-- Why the model gives no meaning. -/
inductive Refusal where
  /-- An instruction without a meaning in the model yet. Raised by no arm of `exec`: every instruction has its meaning.
  Safe where it is raised: the model stops. -/
  | notModelled (mnemonic : String)
  deriving DecidableEq, Repr

/-- The tuple `(V[0..15], I, PC, SP, DT, ST, MEM, DISP)` of spec/10_state.md. -/
structure State where
  /-- The general registers `V[0]` .. `V[15]`; `V[15]` is VF (R18, R20). -/
  v : Vector Byte 16
  /-- The index register I (R24). -/
  i : Word
  /-- The program counter PC, below 4096 in every state a run reaches (R21). -/
  pc : Word
  /-- The stack pointer SP, which no instruction reads or writes (R25). -/
  sp : Byte
  /-- The delay timer DT, inert (R26). -/
  dt : Byte
  /-- The sound timer ST, inert (R27). -/
  st : Byte
  /-- The 4096 bytes of memory (R29). -/
  mem : Memory
  /-- The display (R30). -/
  disp : Display
  deriving DecidableEq, Repr

/-- The state at creation, before any image is loaded: every component 0 but PC, which is 0x200 (spec/10_state.md R35,
spec/70_reset_and_hazards.md R112, R113). -/
def State.reset : State where
  v := Vector.replicate 16 0
  i := 0
  pc := 0x200
  sp := 0
  dt := 0
  st := 0
  mem := []
  disp := Display.blank

end Sys2Proof.Machine
end

