-- ==== Sys2Proof/Machine/Ops.lean ====
section
/-! DEFINITION. The shared operations over memory, registers and display, and the fetch unit. The core has no exception
(spec/60_exceptions.md R94, R99, R100), so there is none to take and none to return from. -/

namespace Sys2Proof.Machine

/-- The loop `for k in [0, n)` of spec/00_scope.md R13: the body runs at 0, 1, .., n-1 in that order, each pass on what
the pass before it left, and not at all when n = 0. -/
def forRange {α : Type} (n : Nat) (body : Nat → α → α) (a : α) : α :=
  match n with
  | 0 => a
  | k + 1 => body k (forRange k body a)

/-- What an address that the memory does not list reads as: the reset value of every byte (spec/10_state.md R29). -/
def Memory.unlisted : Byte := 0

/-- The byte at a key. -/
def Memory.byteAt : Memory → Nat → Byte
  | [], _ => Memory.unlisted
  | (a, b) :: rest, k => if a = k then b else byteAt rest k

/-- The memory with one byte replaced, in canonical form again. -/
def Memory.setByte : Memory → Nat → Byte → Memory
  | [], k, x => if x = Memory.unlisted then [] else [(k, x)]
  | (a, b) :: rest, k, x =>
    if k < a then (if x = Memory.unlisted then (a, b) :: rest else (k, x) :: (a, b) :: rest)
    else if k = a then (if x = Memory.unlisted then rest else (k, x) :: rest)
    else (a, b) :: setByte rest k x

/-- `MemRead(addr, 1)` of spec/00_scope.md R12. Every address exists, and no read has a side effect (spec/20_memory.md
R37, R43). -/
def State.readMem (s : State) (a : Addr) : Byte := s.mem.byteAt a.toNat

/-- `MemWrite(addr, 1, x)` of spec/00_scope.md R12. No instruction uses it (spec/20_memory.md R44). -/
def State.writeMem (s : State) (a : Addr) (x : Byte) : State := { s with mem := s.mem.setByte a.toNat x }

/-- Reading `V[x]` (spec/00_scope.md R11); no register is hardwired (spec/10_state.md R18). -/
def State.readReg (s : State) (x : RegIdx) : Byte := s.v.get x

/-- `V[x] <- b` (spec/00_scope.md R11). -/
def State.writeReg (s : State) (x : RegIdx) (b : Byte) : State := { s with v := s.v.set x.val b x.isLt }

/-- `I <- w` (spec/00_scope.md R11). -/
def State.setI (s : State) (w : Word) : State := { s with i := w }

/-- `PC <- w` (spec/00_scope.md R11). -/
def State.setPc (s : State) (w : Word) : State := { s with pc := w }

/-- `DISP[r][c]` (spec/00_scope.md R12). -/
def State.pixel (s : State) (r : Row) (c : Col) : Pixel := (s.disp.get r).get c

/-- `DISP[r][c] <- p` (spec/00_scope.md R12). -/
def State.setPixel (s : State) (r : Row) (c : Col) (p : Pixel) : State :=
  { s with disp := s.disp.set r.val ((s.disp.get r).set c.val p c.isLt) r.isLt }

/-- Every pixel unset (spec/42_display.md R87). -/
def State.clearDisplay (s : State) : State := { s with disp := Display.blank }

/-- `(pc + 1) mod 4096`: the advance of one fetch (spec/40_cycle.md R67). -/
def nextPc (pc : Word) : Word := BitVec.ofNat 16 ((pc.toNat + 1) % 4096)

/-- The address a fetch at pc reads: pc itself below 4096. DESIGN CHOICE at or above 4096, where no run comes: pc mod
4096 (log 4). -/
def fetchAddr (pc : Word) : Addr := BitVec.ofNat 12 (pc.toNat % 4096)

/-- `fetch()` of spec/40_cycle.md R67: the byte at PC, then the advance. -/
def State.fetch (s : State) : Byte × State := (s.readMem (fetchAddr s.pc), s.setPc (nextPc s.pc))

/-- The two fetches of a step, high byte first (spec/40_cycle.md R68). -/
def State.fetchTwo (s : State) : (Byte × Byte) × State :=
  let (b1, s1) := s.fetch
  let (b2, s2) := s1.fetch
  ((b1, b2), s2)

/-- The state with two bytes standing where the next step fetches its instruction. -/
def State.placeInstr (s : State) (b1 b2 : Byte) : State :=
  (s.writeMem (fetchAddr s.pc) b1).writeMem (fetchAddr (nextPc s.pc)) b2

end Sys2Proof.Machine
end

