-- ==== Sys2Proof/Machine/Operands.lean ====
section
/-! DEFINITION. The operand forms: zero-extended 12-bit values, 8-bit sums, and where a sprite's bytes and pixels lie. -/

namespace Sys2Proof.Machine

/-- `zext_16(nnn)` (spec/30_encoding.md R58). -/
def zext16 (nnn : Addr) : Word := nnn.setWidth 16

/-- `(a + b) mod 256`, the core's only arithmetic on registers (spec/41_control_arith.md R82, R84). -/
def addMod256 (a b : Byte) : Byte := BitVec.ofNat 8 ((a.toNat + b.toNat) % 256)

/-- `(I + k) mod 4096`, the address of sprite byte k (spec/42_display.md R88, R89). The reduction is the spec's decision
D6 (log 2). -/
def spriteAddr (i : Word) (k : Nat) : Addr := BitVec.ofNat 12 ((i.toNat + k) % 4096)

/-- `ox = V[x] mod 64` (spec/42_display.md R88). -/
def originCol (vx : Byte) : Nat := vx.toNat % 64

/-- `oy = V[y] mod 32` (spec/42_display.md R88). -/
def originRow (vy : Byte) : Nat := vy.toNat % 32

/-- The row that sprite row k lands on: `(k + oy) mod 32` (spec/42_display.md R89, R91). -/
def landingRow (k oy : Nat) : Row := ⟨(k + oy) % 32, Nat.mod_lt _ (by decide)⟩

/-- The column that sprite column j lands on: `(j + ox) mod 64` (spec/42_display.md R89, R91). -/
def landingCol (j ox : Nat) : Col := ⟨(j + ox) % 64, Nat.mod_lt _ (by decide)⟩

/-- `byte[7 - j]`: bit 7 is the left-most pixel (spec/42_display.md R90). -/
def spritePixel (b : Byte) (j : Nat) : Pixel := b.getLsbD (7 - j)

end Sys2Proof.Machine
end

