-- ==== Sys2Proof/Machine/Control.lean ====
section
/-! DEFINITION. Control and arithmetic: NOP, JP, LD Vx, ADD Vx, LD I (spec/41_control_arith.md) and the default arm
(spec/40_cycle.md R74). Each runs on the state after the two fetches, so PC is already (PC_start + 2) mod 4096, and what
it does not write stays as it is (R78). -/

namespace Sys2Proof.Machine

/-- NOP (R79): nothing. The diagnostic notification the source permits is left out (D8, log 8). -/
def execNop (s : State) : Host.Outcome State Fault Refusal := .next s

/-- JP nnn (R80): `PC <- zext_16(nnn)`. -/
def execJp (nnn : Addr) (s : State) : Host.Outcome State Fault Refusal := .next (s.setPc (zext16 nnn))

/-- LD Vx, nn (R81): `V[x] <- nn`. -/
def execLdVImm (x : RegIdx) (nn : Byte) (s : State) : Host.Outcome State Fault Refusal := .next (s.writeReg x nn)

/-- ADD Vx, nn (R82): `V[x] <- (V[x] + nn) mod 256`, and no flag. -/
def execAddVImm (x : RegIdx) (nn : Byte) (s : State) : Host.Outcome State Fault Refusal :=
  .next (s.writeReg x (addMod256 (s.readReg x) nn))

/-- LD I, nnn (R83): `I <- zext_16(nnn)`. -/
def execLdI (nnn : Addr) (s : State) : Host.Outcome State Fault Refusal := .next (s.setI (zext16 nnn))

/-- The default arm (spec/40_cycle.md R74): "a true no-op beyond the two fetch advances", whatever the word. -/
def execDefaultNop (_w : Word) (s : State) : Host.Outcome State Fault Refusal := .next s

end Sys2Proof.Machine
end

