-- ==== Sys2Proof/Machine/Flags.lean ====
section
/-! DEFINITION. The core's only flag, VF, and its only rule: the collision of a draw (spec/10_state.md R20). -/

namespace Sys2Proof.Machine

/-- `FLAG_REG` of spec/00_scope.md R7: VF is `V[15]`. -/
abbrev flagReg : RegIdx := 15

/-- A set pixel becomes unset: the one event that sets VF (spec/42_display.md R89). -/
def collides (old p : Pixel) : Bool := old && p

/-- `V[15] <- 0`, "clearing any stale collision flag" (spec/42_display.md R89). -/
def State.clearFlag (s : State) : State := s.writeReg flagReg 0

/-- `if hit then V[15] <- 1`: sticky, never cleared here (spec/42_display.md R89). -/
def State.flagCollision (s : State) (hit : Bool) : State := if hit then s.writeReg flagReg 1 else s

end Sys2Proof.Machine
end

