-- ==== Sys2Proof/Machine/Display.lean ====
section
/-! DEFINITION. The display instructions: CLS and DRW (spec/42_display.md). -/

namespace Sys2Proof.Machine

/-- CLS (R87): every pixel unset; VF is unchanged. -/
def execCls (s : State) : Host.Outcome State Fault Refusal := .next s.clearDisplay

/-- The inner body of R89's loop: XOR one sprite pixel into the display, and record a collision. -/
def State.drawPixel (s : State) (r : Row) (c : Col) (p : Pixel) : State :=
  let old := s.pixel r c
  (s.setPixel r c (old ^^ p)).flagCollision (collides old p)

/-- Sprite row k of R89: read its byte, then draw its eight pixels from the left. -/
def State.drawRow (s : State) (ox oy k : Nat) : State :=
  let b := s.readMem (spriteAddr s.i k)
  forRange 8 (fun j t => t.drawPixel (landingRow k oy) (landingCol j ox) (spritePixel b j)) s

/-- The loop over the n rows of R89. -/
def State.drawSprite (s : State) (ox oy n : Nat) : State := forRange n (fun k t => t.drawRow ox oy k) s

/-- DRW Vx, Vy, n (R89): the origin is read before VF is cleared (R88, D7, log 3); then the sprite is drawn. -/
def execDrw (x y : RegIdx) (n : Height) (s : State) : Host.Outcome State Fault Refusal :=
  let ox := originCol (s.readReg x)
  let oy := originRow (s.readReg y)
  .next (s.clearFlag.drawSprite ox oy n.val)

end Sys2Proof.Machine
end

