-- ==== Sys2Proof/Machine/Dispatch.lean ====
section
/-! DEFINITION. `execute` of spec/40_cycle.md R70: one meaning per constructor of Instr, on the state after the fetches. -/

namespace Sys2Proof.Machine

def exec (i : Instr) (s : State) : Host.Outcome State Fault Refusal :=
  match i with
  | .nop => Sys2Proof.Machine.execNop s
  | .cls => Sys2Proof.Machine.execCls s
  | .jp nnn => Sys2Proof.Machine.execJp nnn s
  | .ldVImm x nn => Sys2Proof.Machine.execLdVImm x nn s
  | .addVImm x nn => Sys2Proof.Machine.execAddVImm x nn s
  | .ldI nnn => Sys2Proof.Machine.execLdI nnn s
  | .drw x y n => Sys2Proof.Machine.execDrw x y n s
  | .defaultNop w => Sys2Proof.Machine.execDefaultNop w s

end Sys2Proof.Machine
end

