-- ==== Sys2Proof/Machine/Step.lean ====
section
/-! DEFINITION. The step: fetch, fetch, decode, execute (spec/40_cycle.md R71). The key input and the returned frame are
Machine/Port.lean's. -/

namespace Sys2Proof.Machine

/-- One call of the single-cycle entry point, as a function of the state alone (spec/40_cycle.md R71, R76). -/
def step (s : State) : Host.Outcome State Fault Refusal :=
  exec (decode s.fetchTwo.1.1 s.fetchTwo.1.2) s.fetchTwo.2

/-- The state with a table word standing where step fetches its next instruction, high byte first; nothing else
changes. It stands for the load of a program from outside (log 7). -/
def State.withFetchWord (s : State) (nbits w : Nat) : State :=
  s.placeInstr (highByte (BitVec.ofNat 16 (w % 2 ^ nbits))) (lowByte (BitVec.ofNat 16 (w % 2 ^ nbits)))

end Sys2Proof.Machine
end

