-- ==== Sys2Proof/Machine/Assembly.lean ====
section
/-! DEFINITION. The spec's own assembler syntax (spec/30_encoding.md R64, R65; spec/92_eei_decisions.md D2). It carries no
meaning beyond the encodings: no step uses it. -/

namespace Sys2Proof.Machine

/-- A hexadecimal digit, as the spec's listings write it. -/
def hexDigit (k : Nibble) : Char := "0123456789ABCDEF".toList.getD k.toNat '0'

/-- `0x` and the digits of some nibbles, the most significant first. -/
def hexText (digits : List Nibble) : List Char := '0' :: 'x' :: digits.map hexDigit

/-- An 8-bit immediate, two digits. -/
def byteText (b : Byte) : List Char := hexText [highNibble b, lowNibble b]

/-- A 12-bit address, three digits. -/
def addrText (a : Addr) : List Char := hexText [a.extractLsb' 8 4, a.extractLsb' 4 4, a.extractLsb' 0 4]

/-- A 16-bit word, four digits. -/
def wordText (w : Word) : List Char :=
  hexText [highNibble (highByte w), lowNibble (highByte w), highNibble (lowByte w), lowNibble (lowByte w)]

/-- A register: `V0` to `V9` and `VA` to `VF` (R64). -/
def regText (x : RegIdx) : List Char := ['V', hexDigit (fieldOf x)]

/-- The syntax of an instruction as R64 gives it, with numbers in hexadecimal and the sprite height as a decimal number
(log 19), as characters. -/
def asmText : Instr → List Char
  | .nop => "NOP".toList
  | .cls => "CLS".toList
  | .jp nnn => "JP ".toList ++ addrText nnn
  | .ldVImm x nn => "LD ".toList ++ regText x ++ ", ".toList ++ byteText nn
  | .addVImm x nn => "ADD ".toList ++ regText x ++ ", ".toList ++ byteText nn
  | .ldI nnn => "LD I, ".toList ++ addrText nnn
  | .drw x y n => "DRW ".toList ++ regText x ++ ", ".toList ++ regText y ++ ", ".toList ++ (toString n.val).toList
  | .defaultNop w => ".word ".toList ++ wordText w

/-- A line of a listing: an instruction, `.word` of a default-arm word among them, or `.byte 0xBB` (R65). There are no
pseudo-instructions. -/
inductive AsmLine where
  | instr (i : Instr)
  | byte (b : Byte)
  deriving DecidableEq, Repr

/-- The bytes of one line. -/
def AsmLine.bytes : AsmLine → List Byte
  | .instr i => encode i
  | .byte b => [b]

/-- The image of a listing: the bytes of its lines "at consecutive addresses in the image in the order written" (R65). -/
def assemble (lines : List AsmLine) : List Byte := lines.flatMap AsmLine.bytes

/-- The instructions that bytes hold, read two at a time from the first; a last single byte holds none (R53). -/
def disassemble : List Byte → List Instr
  | b1 :: b2 :: rest => decode b1 b2 :: disassemble rest
  | _ => []

end Sys2Proof.Machine
end

