-- ==== Sys2Proof/Machine/Boot.lean ====
section
/-! DEFINITION. The load of a program image and the launch state (spec/70_reset_and_hazards.md R114 to R119). -/

namespace Sys2Proof.Machine

/-- `MemWrite(base + k, 1, image[k])` for each byte of an image, in rising order (R116). -/
def State.storeFrom (s : State) (base : Nat) : List Byte → State
  | [] => s
  | b :: rest => (s.writeMem (BitVec.ofNat 12 (base % 4096)) b).storeFrom (base + 1) rest

/-- `load(image)` (R115, R116): an image that does not fit is refused with nothing copied and no state handed over (D18,
log 7); any other is copied verbatim from 0x200 on, and no register or pixel is touched. -/
def load (image : List Byte) (s : State) : Host.Outcome State Fault Refusal :=
  if image.length > Config.maxImage then .fault .imageTooLong else .next (s.storeFrom Config.loadBase image)

/-- `Launch(image)` (R119): the state at creation with the image loaded, which happens once (R117). -/
def launch (image : List Byte) : Host.Outcome State Fault Refusal := load image State.reset

end Sys2Proof.Machine
end

