-- ==== Sys2Proof/Machine/Port.lean ====
section
/-! DEFINITION. The core's boundary as transactions (spec/00_scope.md R17, spec/60_exceptions.md R106 to R109). -/

namespace Sys2Proof.Machine

/-- `snapshot(DISP)` (spec/40_cycle.md R72): a copy, which no later step changes (D15, log 13). -/
def State.snapshot (s : State) : Frame := s.disp

/-- `audio_active(state) = false` (spec/60_exceptions.md R108). -/
def State.audioActive (_s : State) : Bool := false

/-- `step(keys) -> Frame` (spec/40_cycle.md R71): the next state and the frame. The keys are of any type, the open
parameter `Keys`, and are never read (R75, D12, log 5). -/
def stepPort {Keys : Type} (_keys : Keys) (s : State) : Host.Outcome (State × Frame) Fault Refusal :=
  match step s with
  | .next t => .next (t, t.snapshot)
  | .fault r => .fault r
  | .refused r => .refused r

/-- A run (spec/70_reset_and_hazards.md R125, D14, log 16): one step for each key input of the list, the state after the
last and the frames in order. -/
def runFrames {Keys : Type} : List Keys → State → Host.Outcome (State × List Frame) Fault Refusal
  | [], s => .next (s, [])
  | keys :: rest, s =>
    match stepPort keys s with
    | .next (t, frame) =>
      match runFrames rest t with
      | .next (u, frames) => .next (u, frame :: frames)
      | .fault r => .fault r
      | .refused r => .refused r
    | .fault r => .fault r
    | .refused r => .refused r

end Sys2Proof.Machine
end

