-- ==== Sys2Proof/Safety.lean ====
section
/-! DEFINITION. What the claims speak of: the invariant of the states a run can reach, and what "unchanged" means for
each part of the state. -/

namespace Sys2Proof.Machine

/-- The program counter is in [0, 4096) (spec/10_state.md R21). -/
abbrev State.PcInRange (s : State) : Prop := s.pc.toNat < 4096

/-- Bits 15:12 of I are 0 (spec/10_state.md R24). -/
abbrev State.IndexInRange (s : State) : Prop := s.i.toNat < 4096

/-- SP, DT and ST hold their reset value (spec/10_state.md R25 to R27). -/
abbrev State.InertAtReset (s : State) : Prop := s.sp = 0 ∧ s.dt = 0 ∧ s.st = 0

/-- What spec/10_state.md says of every state a run reaches, with the canonical form of the memory list. -/
abbrev State.Inv (s : State) : Prop :=
  s.PcInRange ∧ s.IndexInRange ∧ s.InertAtReset ∧ s.mem.wf = true

/-- The byte pair a step from s fetches, as a word (spec/30_encoding.md R54), for a PC in range: b1 at PC, b2 at
(PC + 1) mod 4096. -/
def State.wordAtPc (s : State) : Word :=
  wordOf (s.readMem (BitVec.ofNat 12 s.pc.toNat)) (s.readMem (BitVec.ofNat 12 ((s.pc.toNat + 1) % 4096)))

/-- The post-fetch PC, (PC_start + 2) mod 4096 (spec/10_state.md R22). -/
def State.postFetchPc (s : State) : Word := BitVec.ofNat 16 ((s.pc.toNat + 2) % 4096)

/-- Every general register but those in the list reads the same. -/
def SameRegsBut (xs : List RegIdx) (s t : State) : Prop := ∀ r, r ∉ xs → t.readReg r = s.readReg r

/-- Every byte of memory reads the same. -/
def SameMemory (s t : State) : Prop := ∀ a, t.readMem a = s.readMem a

/-- Every pixel is the same. -/
def SameDisplay (s t : State) : Prop := ∀ r c, t.pixel r c = s.pixel r c

/-- SP, DT and ST are the same. -/
def SameInert (s t : State) : Prop := t.sp = s.sp ∧ t.dt = s.dt ∧ t.st = s.st

/-! The operand fields of a word, as spec/30_encoding.md R56 places them, read off W and not through the decoder. -/

/-- x = W[11:8]. -/
def wordX (w : Word) : RegIdx := ⟨w.toNat / 256 % 16, Nat.mod_lt _ (by decide)⟩

/-- y = W[7:4]. -/
def wordY (w : Word) : RegIdx := ⟨w.toNat / 16 % 16, Nat.mod_lt _ (by decide)⟩

/-- n = W[3:0]. -/
def wordN (w : Word) : Height := ⟨w.toNat % 16, Nat.mod_lt _ (by decide)⟩

/-- nn = W[7:0]. -/
def wordNn (w : Word) : Byte := BitVec.ofNat 8 (w.toNat % 256)

/-- nnn = W[11:0]. -/
def wordNnn (w : Word) : Addr := BitVec.ofNat 12 (w.toNat % 4096)

/-- The sprite pixel that lands on (r, c), if p is it: a draw of n rows from s with origin column ox and origin row oy
puts bit 7 - j of sprite byte k on row (k + oy) mod 32 and column (j + ox) mod 64 (spec/42_display.md R89 to R91). The
address beyond 0xFFF is the spec's decision D6 (log 2). -/
def SpriteBitAt (s : State) (ox oy n : Nat) (r : Row) (c : Col) (p : Pixel) : Prop :=
  ∃ k, k < n ∧ ∃ j, j < 8 ∧ r.val = (k + oy) % 32 ∧ c.val = (j + ox) % 64 ∧
    p = (s.readMem (BitVec.ofNat 12 ((s.i.toNat + k) % 4096))).getLsbD (7 - j)

/-- The display and VF after a draw from s (spec/42_display.md R92): each pixel a sprite bit lands on is XORed with it,
every other pixel is as before, and VF is 1 when a set bit landed on a set pixel, 0 when none did. -/
def Drawn (s t : State) (ox oy n : Nat) : Prop :=
  (∀ r c p, SpriteBitAt s ox oy n r c p → t.pixel r c = (s.pixel r c ^^ p)) ∧
  (∀ r c, (∀ p, ¬ SpriteBitAt s ox oy n r c p) → t.pixel r c = s.pixel r c) ∧
  ((∃ r c, s.pixel r c = true ∧ SpriteBitAt s ox oy n r c true) → t.readReg flagReg = 1) ∧
  ((¬ ∃ r c, s.pixel r c = true ∧ SpriteBitAt s ox oy n r c true) → t.readReg flagReg = 0)

end Sys2Proof.Machine
end

