-- ==== Sys2Proof/Certificates/Slice0/Obligations.lean ====
section
/-! DEFINITION. The statements for the provers. "stated" and "derived" are the bases OBLIGATIONS.json gives them. Where a
statement speaks of a step, its premise `PcInRange` is spec/10_state.md R21, which PcStaysInRange states of every step.
PlacedTableWordRunsNext alone says what a step at any PC runs without it (log 4). -/

open Sys2Proof Sys2Proof.Machine

/-! Encoding -/

/-- Every well-formed instruction is read back from its own bytes, whatever follows them (spec/30_encoding.md R53 to R59). -/
def Obligations.DecodeOfEncodeIsIdentity : Prop :=
  ∀ (i : Instr) (rest : List Byte), i.wf = true → decodeBytes (encode i ++ rest) = .ok (i, rest)

/-- spec/30_encoding.md R55: every pair of bytes decodes, to a well-formed instruction, and that instruction's bytes are
the two it was read from, so no bit is dropped. -/
def Obligations.EveryWordDecodesAndEncodesBack : Prop :=
  ∀ (b1 b2 : Byte) (rest : List Byte), ∃ i : Instr,
    decodeBytes (b1 :: b2 :: rest) = .ok (i, rest) ∧ i.wf = true ∧ encode i = [b1, b2]

/-- spec/30_encoding.md R59: a word selects the pattern whose mask and match it meets, each pattern no other word, and no
word meets two patterns. -/
def Obligations.WordSelectsTheOnePatternItMatches : Prop :=
  (∀ w : Word,
    (decodeWord w = .nop ↔ matchesPattern w (0xFFFF, 0x0000) = true) ∧
    (decodeWord w = .cls ↔ matchesPattern w (0xFFFF, 0x00E0) = true) ∧
    ((∃ nnn, decodeWord w = .jp nnn) ↔ matchesPattern w (0xF000, 0x1000) = true) ∧
    ((∃ x nn, decodeWord w = .ldVImm x nn) ↔ matchesPattern w (0xF000, 0x6000) = true) ∧
    ((∃ x nn, decodeWord w = .addVImm x nn) ↔ matchesPattern w (0xF000, 0x7000) = true) ∧
    ((∃ nnn, decodeWord w = .ldI nnn) ↔ matchesPattern w (0xF000, 0xA000) = true) ∧
    ((∃ x y n, decodeWord w = .drw x y n) ↔ matchesPattern w (0xF000, 0xD000) = true)) ∧
  (∀ w : Word, ∀ p ∈ supportedPatterns, ∀ q ∈ supportedPatterns,
    matchesPattern w p = true → matchesPattern w q = true → p = q)

/-- spec/30_encoding.md R60, R66: the default arm holds exactly the words no supported pattern matches, and keeps the
word. -/
def Obligations.DefaultArmHoldsExactlyTheOtherWords : Prop :=
  ∀ w v : Word, decodeWord w = .defaultNop v ↔ (v = w ∧ isSupported w = false)

/-- spec/30_encoding.md R56, R58: each operand is the field of W that the table gives it. -/
def Obligations.OperandsAreTheFieldsOfTheWord : Prop :=
  ∀ w : Word,
    (matchesPattern w (0xF000, 0x1000) = true → decodeWord w = .jp (wordNnn w)) ∧
    (matchesPattern w (0xF000, 0x6000) = true → decodeWord w = .ldVImm (wordX w) (wordNn w)) ∧
    (matchesPattern w (0xF000, 0x7000) = true → decodeWord w = .addVImm (wordX w) (wordNn w)) ∧
    (matchesPattern w (0xF000, 0xA000) = true → decodeWord w = .ldI (wordNnn w)) ∧
    (matchesPattern w (0xF000, 0xD000) = true → decodeWord w = .drw (wordX w) (wordY w) (wordN w))

/-- A few words of spec/95_test_vectors.md decode to the instructions it reads them as. -/
def Obligations.SampleWordsDecodeAsTheSpecReadsThem : Prop :=
  decode 0x00 0x00 = .nop ∧ decode 0x00 0xE0 = .cls ∧ decode 0x1A 0xBC = .jp 0xABC ∧
  decode 0x6A 0x42 = .ldVImm 10 0x42 ∧ decode 0x7A 0xFF = .addVImm 10 0xFF ∧ decode 0xA2 0x0C = .ldI 0x20C ∧
  decode 0xD1 0x2F = .drw 1 2 15 ∧ decode 0x00 0xEE = .defaultNop 0x00EE ∧ decode 0x22 0x06 = .defaultNop 0x2206

/-- The image of a listing of well-formed instructions, read two bytes at a time, gives the listing back, and is two bytes
an instruction long (spec/30_encoding.md R53, R65). -/
def Obligations.AssembledInstructionsReadBack : Prop :=
  ∀ is : List Instr, (∀ i ∈ is, i.wf = true) →
    disassemble (assemble (is.map .instr)) = is ∧ (assemble (is.map .instr)).length = 2 * is.length

/-! The cycle -/

/-- spec/40_cycle.md R67: fetch answers the byte at PC, advances PC by 1 modulo 4096, and changes nothing else. -/
def Obligations.FetchReadsThenAdvances : Prop :=
  ∀ s : State, s.PcInRange →
    s.fetch.1 = s.readMem (BitVec.ofNat 12 s.pc.toNat) ∧
    s.fetch.2.pc.toNat = (s.pc.toNat + 1) % 4096 ∧
    SameRegsBut [] s s.fetch.2 ∧ s.fetch.2.i = s.i ∧ SameInert s s.fetch.2 ∧ SameMemory s s.fetch.2 ∧
    SameDisplay s s.fetch.2

/-- spec/40_cycle.md R71: when the bytes b1 at PC and b2 at (PC + 1) mod 4096 decode to i, the step is exec of i on the
state with PC advanced past both, and the port answers that state with a copy of its display, whatever the keys. -/
def Obligations.StepRunsTheDecodedInstruction : Prop :=
  ∀ (s : State) (b1 b2 : Byte) (i : Instr), s.PcInRange →
    s.readMem (BitVec.ofNat 12 s.pc.toNat) = b1 →
    s.readMem (BitVec.ofNat 12 ((s.pc.toNat + 1) % 4096)) = b2 →
    decode b1 b2 = i →
    step s = exec i (s.setPc s.postFetchPc) ∧
    ∀ (Keys : Type) (keys : Keys) (t : State),
      exec i (s.setPc s.postFetchPc) = .next t → stepPort keys s = .next (t, t.disp)

/-- spec/40_cycle.md R73: every step answers a next state, never a fault or a refusal, and the port the frame with it. -/
def Obligations.EveryStepCompletes : Prop :=
  ∀ (s : State) (Keys : Type) (keys : Keys), s.PcInRange →
    ∃ t : State, step s = .next t ∧ stepPort keys s = .next (t, t.disp)

/-- spec/70_reset_and_hazards.md R124: no run of any length stops. -/
def Obligations.TheCoreNeverStopsByItself : Prop :=
  ∀ (s : State) (k : Nat), s.PcInRange → ∃ t : State, Sys2Proof.core.run k s = .next t

/-- spec/40_cycle.md R72: a run answers one frame for each step, frame j being the display as it stood after step j + 1,
which the later steps of the run did not change. -/
def Obligations.EachFrameIsTheDisplayAfterItsStep : Prop :=
  ∀ (Keys : Type) (keys : List Keys) (s : State), s.PcInRange → ∃ (t : State) (frames : List Frame),
    runFrames keys s = .next (t, frames) ∧ Sys2Proof.core.run keys.length s = .next t ∧
    frames.length = keys.length ∧
    ∀ j, j < keys.length → ∃ u : State, Sys2Proof.core.run (j + 1) s = .next u ∧ frames[j]? = some u.disp

/-- spec/40_cycle.md R75: no state and no frame of a run depends on the key inputs, nor on their type. -/
def Obligations.RunsDoNotDependOnTheKeys : Prop :=
  ∀ (Keys Keys' : Type) (keys : List Keys) (keys' : List Keys') (s : State),
    keys.length = keys'.length → runFrames keys s = runFrames keys' s

/-! Reset, load and the invariant -/

/-- spec/10_state.md R35: every component's reset value, which every launch keeps but for the bytes of the image. -/
def Obligations.ResetValuesAreTheSpecs : Prop :=
  (∀ x, State.reset.readReg x = 0) ∧ State.reset.i = 0 ∧ State.reset.pc = 0x200 ∧ State.reset.sp = 0 ∧
  State.reset.dt = 0 ∧ State.reset.st = 0 ∧ (∀ a, State.reset.readMem a = 0) ∧
  (∀ r c, State.reset.pixel r c = false) ∧
  ∀ (image : List Byte) (t : State), launch image = .next t →
    SameRegsBut [] State.reset t ∧ t.i = 0 ∧ t.pc = 0x200 ∧ SameInert State.reset t ∧ SameDisplay State.reset t ∧
    ∀ a : Addr, (a.toNat < 0x200 ∨ 0x200 + image.length ≤ a.toNat) → t.readMem a = 0

/-- The invariant holds at reset. -/
def Obligations.ResetMeetsTheInvariant : Prop := State.reset.Inv

/-- The invariant holds of every launch state (spec/70_reset_and_hazards.md R119). -/
def Obligations.EveryLaunchMeetsTheInvariant : Prop :=
  ∀ (image : List Byte) (t : State), launch image = .next t → t.Inv

/-- Every step keeps the invariant: PC and I below 4096, SP, DT and ST at 0, memory in canonical form. -/
def Obligations.EveryStepKeepsTheInvariant : Prop :=
  ∀ s t : State, s.Inv → step s = .next t → t.Inv

/-- spec/10_state.md R21: PC starts at 0x200 and every step leaves it in [0, 4096). -/
def Obligations.PcStaysInRange : Prop :=
  State.reset.pc = 0x200 ∧ ∀ s t : State, step s = .next t → t.pc.toNat < 4096

/-- spec/70_reset_and_hazards.md R116: the load puts byte k of an image that fits at 0x200 + k, keeps every other byte,
and touches no register and not the display; an image that does not fit gives no state. -/
def Obligations.LoadCopiesTheImage : Prop :=
  ∀ (image : List Byte) (s : State), s.mem.wf = true →
    (3584 < image.length → ¬ ∃ t : State, load image s = .next t) ∧
    (image.length ≤ 3584 → ∃ t : State, load image s = .next t ∧
      (∀ k (hk : k < image.length), t.readMem (BitVec.ofNat 12 (0x200 + k)) = image[k]) ∧
      (∀ a : Addr, (a.toNat < 0x200 ∨ 0x200 + image.length ≤ a.toNat) → t.readMem a = s.readMem a) ∧
      SameRegsBut [] s t ∧ t.i = s.i ∧ t.pc = s.pc ∧ SameInert s t ∧ SameDisplay s t)

/-- spec/70_reset_and_hazards.md R115: a launch state exists exactly for an image of at most 3584 bytes. -/
def Obligations.OnlyImagesThatFitLaunch : Prop :=
  ∀ image : List Byte, (∃ t : State, launch image = .next t) ↔ image.length ≤ 3584

/-- spec/20_memory.md R51: after any number of steps from a launch, memory still reads as the image was loaded, with 0 at
every other address. -/
def Obligations.FetchAlwaysSeesTheImageAsLoaded : Prop :=
  ∀ (image : List Byte) (u t : State) (k : Nat), launch image = .next u → Sys2Proof.core.run k u = .next t →
    (∀ j (hj : j < image.length), t.readMem (BitVec.ofNat 12 (0x200 + j)) = image[j]) ∧
    (∀ a : Addr, (a.toNat < 0x200 ∨ 0x200 + image.length ≤ a.toNat) → t.readMem a = 0)

/-- spec/70_reset_and_hazards.md R113: the first step after a launch runs the instruction at 0x200 and 0x201. -/
def Obligations.FirstStepRunsTheEntryPoint : Prop :=
  ∀ (image : List Byte) (u : State), launch image = .next u →
    u.pc = 0x200 ∧ step u = exec (decode (u.readMem 0x200) (u.readMem 0x201)) (u.setPc 0x202)

/-- A word placed with withFetchWord is what the next step runs, as decodeTableWord reads it: the model's own placing (log
7, log 14). It takes no `PcInRange`: for a PC at or above 4096 it rests on the model's fetch address (log 4). -/
def Obligations.PlacedTableWordRunsNext : Prop :=
  ∀ (s : State) (w : Nat), s.mem.wf = true → w < 65536 →
    ∃ i : Instr, decodeTableWord 16 w = some i ∧
      step (s.withFetchWord 16 w) = exec i ((s.withFetchWord 16 w).setPc s.postFetchPc)

/-! Promises about the whole machine -/

/-- spec/20_memory.md R44: no run of any length from any state changes a byte of memory. -/
def Obligations.NoStepWritesMemory : Prop :=
  ∀ (s t : State) (k : Nat), Sys2Proof.core.run k s = .next t → t.mem = s.mem ∧ SameMemory s t

/-- spec/10_state.md R25 to R27, spec/60_exceptions.md R108: no step reads or writes SP, DT or ST (with other values in
them it does the same and leaves those there), they hold 0 in every state a run from a launch reaches, and the audio
indicator is false in every state. -/
def Obligations.InertRegistersAreNeverReadOrWritten : Prop :=
  (∀ s t : State, step s = .next t → SameInert s t) ∧
  (∀ (s t : State) (a b c : Byte), step s = .next t →
    step { s with sp := a, dt := b, st := c } = .next { t with sp := a, dt := b, st := c }) ∧
  (∀ (image : List Byte) (u t : State) (k : Nat), launch image = .next u → Sys2Proof.core.run k u = .next t →
    t.sp = 0 ∧ t.dt = 0 ∧ t.st = 0) ∧
  (∀ s : State, s.audioActive = false)

/-- spec/10_state.md R22: the PC after a step is (PC + 2) mod 4096, but for `1nnn`, where it is nnn. -/
def Obligations.OnlyJpLeavesThePostFetchPc : Prop :=
  ∀ s t : State, s.PcInRange → step s = .next t →
    (matchesPattern s.wordAtPc (0xF000, 0x1000) = true → t.pc.toNat = s.wordAtPc.toNat % 4096) ∧
    (matchesPattern s.wordAtPc (0xF000, 0x1000) = false → t.pc.toNat = (s.pc.toNat + 2) % 4096)

/-- spec/10_state.md R19: a step that changes V[r] ran `6xnn` or `7xnn` with x = r, or `Dxyn` with r = 15. -/
def Obligations.OnlyThreeInstructionsWriteRegisters : Prop :=
  ∀ (s t : State) (r : RegIdx), s.PcInRange → step s = .next t → t.readReg r ≠ s.readReg r →
    ((matchesPattern s.wordAtPc (0xF000, 0x6000) = true ∨ matchesPattern s.wordAtPc (0xF000, 0x7000) = true) ∧
      wordX s.wordAtPc = r) ∨
    (matchesPattern s.wordAtPc (0xF000, 0xD000) = true ∧ r = 15)

/-- spec/10_state.md R24, R30: a step that changes I ran `Annn`, and one that changes a pixel ran `00E0` or `Dxyn`. -/
def Obligations.OnlyTheNamedInstructionsWriteIndexAndDisplay : Prop :=
  ∀ s t : State, s.PcInRange → step s = .next t →
    (t.i ≠ s.i → matchesPattern s.wordAtPc (0xF000, 0xA000) = true) ∧
    (∀ r c, t.pixel r c ≠ s.pixel r c →
      s.wordAtPc = 0x00E0 ∨ matchesPattern s.wordAtPc (0xF000, 0xD000) = true)

/-- spec/10_state.md R20: after `Dxyn`, VF is 1 when the draw cleared a set pixel and 0 otherwise; any other word leaves
VF alone but `6Fnn` and `7Fnn`. -/
def Obligations.VfRecordsWhetherAPixelWasCleared : Prop :=
  ∀ s t : State, s.PcInRange → step s = .next t →
    (matchesPattern s.wordAtPc (0xF000, 0xD000) = true →
      ((∃ r c, s.pixel r c = true ∧ t.pixel r c = false) → t.readReg 15 = 1) ∧
      ((¬ ∃ r c, s.pixel r c = true ∧ t.pixel r c = false) → t.readReg 15 = 0)) ∧
    (matchesPattern s.wordAtPc (0xF000, 0xD000) = false → matchesPattern s.wordAtPc (0xFF00, 0x6F00) = false →
      matchesPattern s.wordAtPc (0xFF00, 0x7F00) = false → t.readReg 15 = s.readReg 15)

/-- spec/20_memory.md R41: a step reads no byte of memory but the two it fetches and, for `Dxyn`, the n sprite bytes from
I on. Two states that differ in memory only, and agree on those bytes, step to states that differ in memory only. Where
the sprite bytes lie beyond 0xFFF is the spec's decision D6 (log 2). -/
def Obligations.StepReadsOnlyFetchedAndSpriteBytes : Prop :=
  ∀ (s t : State) (m : Memory), s.PcInRange →
    { s with mem := m }.readMem (BitVec.ofNat 12 s.pc.toNat) = s.readMem (BitVec.ofNat 12 s.pc.toNat) →
    { s with mem := m }.readMem (BitVec.ofNat 12 ((s.pc.toNat + 1) % 4096)) =
      s.readMem (BitVec.ofNat 12 ((s.pc.toNat + 1) % 4096)) →
    (matchesPattern s.wordAtPc (0xF000, 0xD000) = true → ∀ k, k < s.wordAtPc.toNat % 16 →
      { s with mem := m }.readMem (BitVec.ofNat 12 ((s.i.toNat + k) % 4096)) =
        s.readMem (BitVec.ofNat 12 ((s.i.toNat + k) % 4096))) →
    step s = .next t → step { s with mem := m } = .next { t with mem := m }

/-- spec/10_state.md R30, spec/42_display.md R89: the display reaches nothing but itself and VF. Two states that differ
in the display only step to states that agree on every register but VF, and on VF too unless the word is `Dxyn`. -/
def Obligations.DisplayReachesOnlyItselfAndVf : Prop :=
  ∀ (s t t' : State) (d : Display), s.PcInRange → step s = .next t → step { s with disp := d } = .next t' →
    t'.i = t.i ∧ t'.pc = t.pc ∧ SameInert t t' ∧ SameMemory t t' ∧ SameRegsBut [15] t t' ∧
    (matchesPattern s.wordAtPc (0xF000, 0xD000) = false → t'.readReg 15 = t.readReg 15)

/-! Each instruction on the state after the fetches: it completes, what it writes, and what it leaves unchanged -/

/-- NOP and every default-arm word complete and change nothing (spec/41_control_arith.md R79, spec/40_cycle.md R74). -/
def Obligations.NopAndDefaultArmChangeNothing : Prop :=
  ∀ (s : State) (w : Word), exec .nop s = .next s ∧ exec (.defaultNop w) s = .next s

/-- JP completes, PC becomes nnn, and nothing else changes (spec/41_control_arith.md R80). -/
def Obligations.JpWritesOnlyPc : Prop :=
  ∀ (nnn : Addr) (s : State), ∃ t : State, exec (.jp nnn) s = .next t ∧
    t.pc.toNat = nnn.toNat ∧
    SameRegsBut [] s t ∧ t.i = s.i ∧ SameInert s t ∧ SameMemory s t ∧ SameDisplay s t

/-- LD I completes, I becomes nnn, and nothing else changes (spec/41_control_arith.md R83). -/
def Obligations.LdIWritesOnlyI : Prop :=
  ∀ (nnn : Addr) (s : State), ∃ t : State, exec (.ldI nnn) s = .next t ∧
    t.i.toNat = nnn.toNat ∧
    SameRegsBut [] s t ∧ t.pc = s.pc ∧ SameInert s t ∧ SameMemory s t ∧ SameDisplay s t

/-- LD Vx and ADD Vx complete, V[x] becomes nn or (V[x] + nn) mod 256, VF included when x = 15 only, and nothing else
changes (spec/41_control_arith.md R81, R82). -/
def Obligations.LdAndAddWriteOnlyVx : Prop :=
  ∀ (x : RegIdx) (nn : Byte) (s : State),
    (∃ t : State, exec (.ldVImm x nn) s = .next t ∧ t.readReg x = nn ∧
      SameRegsBut [x] s t ∧ t.i = s.i ∧ t.pc = s.pc ∧ SameInert s t ∧ SameMemory s t ∧ SameDisplay s t) ∧
    (∃ t : State, exec (.addVImm x nn) s = .next t ∧
      (t.readReg x).toNat = ((s.readReg x).toNat + nn.toNat) % 256 ∧
      SameRegsBut [x] s t ∧ t.i = s.i ∧ t.pc = s.pc ∧ SameInert s t ∧ SameMemory s t ∧ SameDisplay s t)

/-- CLS completes, every pixel becomes unset, and nothing else changes, VF included (spec/42_display.md R87). -/
def Obligations.ClsWritesOnlyTheDisplay : Prop :=
  ∀ s : State, ∃ t : State, exec .cls s = .next t ∧
    (∀ r c, t.pixel r c = false) ∧
    SameRegsBut [] s t ∧ t.i = s.i ∧ t.pc = s.pc ∧ SameInert s t ∧ SameMemory s t

/-- DRW completes for all operands, and changes nothing but VF and pixels the sprite's rows and columns land on; VF ends
as 0 or 1 (spec/42_display.md R89, R93). The origin is read before VF is cleared: decision D7 (log 3). -/
def Obligations.DrwWritesOnlyVfAndTheDisplay : Prop :=
  ∀ (x y : RegIdx) (n : Height) (s : State), ∃ t : State, exec (.drw x y n) s = .next t ∧
    SameRegsBut [15] s t ∧ (t.readReg 15 = 0 ∨ t.readReg 15 = 1) ∧
    t.i = s.i ∧ t.pc = s.pc ∧ SameInert s t ∧ SameMemory s t ∧
    ∀ r c, (∀ p, ¬ SpriteBitAt s ((s.readReg x).toNat % 64) ((s.readReg y).toNat % 32) n.val r c p) →
      t.pixel r c = s.pixel r c

/-- The closed form of DRW (spec/42_display.md R92), for every origin and height. It rests on the spec's decisions D6, the
sprite address beyond 0xFFF (log 2), and D7, the origin read before VF is cleared (log 3). -/
def Obligations.DrwXorsTheSpriteIntoTheDisplay : Prop :=
  ∀ (x y : RegIdx) (n : Height) (s : State), ∃ t : State, exec (.drw x y n) s = .next t ∧
    Drawn s t ((s.readReg x).toNat % 64) ((s.readReg y).toNat % 32) n.val

/-- No two sprite pixels of one draw land on the same pixel of the display (spec/42_display.md R91). -/
def Obligations.NoPixelIsDrawnTwiceInOneDraw : Prop :=
  ∀ k k' j j' ox oy : Nat, k < 15 → k' < 15 → j < 8 → j' < 8 →
    landingRow k oy = landingRow k' oy → landingCol j ox = landingCol j' ox → k = k' ∧ j = j'

/-- The double draw of spec/42_display.md R92: with x and y other than 15, the same draw twice restores the display, and
VF is then 1 exactly when some set sprite bit landed on a pixel that was unset at first. The address of a sprite byte
beyond 0xFFF is the spec's decision D6 (log 2). -/
def Obligations.DrawingTwiceRestoresTheDisplay : Prop :=
  ∀ (x y : RegIdx) (n : Height) (s : State), x ≠ 15 → y ≠ 15 → ∃ t u : State,
    exec (.drw x y n) s = .next t ∧ exec (.drw x y n) t = .next u ∧ SameDisplay s u ∧
    (u.readReg 15 = 1 ↔ ∃ r c, s.pixel r c = false ∧
      SpriteBitAt s ((s.readReg x).toNat % 64) ((s.readReg y).toNat % 32) n.val r c true) ∧
    (u.readReg 15 = 0 ∨ u.readReg 15 = 1)

/-! Each instruction as a whole step, from the word at PC -/

/-- spec/41_control_arith.md R79: the word 0x0000 moves PC past it and does nothing else. -/
def Obligations.ZeroWordStepsAsNop : Prop :=
  ∀ s : State, s.PcInRange → s.wordAtPc = 0x0000 → step s = .next (s.setPc s.postFetchPc)

/-- spec/41_control_arith.md R80: `1nnn` sets PC to nnn whatever it was, changes nothing else, and at its own address
leaves the state as it is. -/
def Obligations.JumpWordSetsPcToItsAddress : Prop :=
  ∀ s : State, s.PcInRange → matchesPattern s.wordAtPc (0xF000, 0x1000) = true →
    step s = .next (s.setPc (BitVec.ofNat 16 (s.wordAtPc.toNat % 4096))) ∧
    (s.wordAtPc.toNat % 4096 = s.pc.toNat → step s = .next s)

/-- spec/41_control_arith.md R81: `6xnn` writes nn to V[x] and moves PC past the word. -/
def Obligations.LoadWordWritesItsImmediate : Prop :=
  ∀ s : State, s.PcInRange → matchesPattern s.wordAtPc (0xF000, 0x6000) = true → ∃ t : State, step s = .next t ∧
    t.readReg (wordX s.wordAtPc) = wordNn s.wordAtPc ∧ SameRegsBut [wordX s.wordAtPc] s t ∧
    t.pc = s.postFetchPc ∧ t.i = s.i ∧ SameInert s t ∧ SameMemory s t ∧ SameDisplay s t

/-- spec/41_control_arith.md R82: `7xnn` adds nn to V[x] modulo 256 with no flag and moves PC past the word; a second
`7xnn` on the same register adds to that sum. -/
def Obligations.AddWordAddsModulo256 : Prop :=
  ∀ s : State, s.PcInRange → matchesPattern s.wordAtPc (0xF000, 0x7000) = true → ∃ t : State, step s = .next t ∧
    (t.readReg (wordX s.wordAtPc)).toNat = ((s.readReg (wordX s.wordAtPc)).toNat + s.wordAtPc.toNat % 256) % 256 ∧
    SameRegsBut [wordX s.wordAtPc] s t ∧ t.pc = s.postFetchPc ∧ t.i = s.i ∧ SameInert s t ∧ SameMemory s t ∧
    SameDisplay s t ∧
    (matchesPattern t.wordAtPc (0xF000, 0x7000) = true → wordX t.wordAtPc = wordX s.wordAtPc →
      ∃ u : State, step t = .next u ∧ (u.readReg (wordX s.wordAtPc)).toNat =
        ((s.readReg (wordX s.wordAtPc)).toNat + s.wordAtPc.toNat % 256 + t.wordAtPc.toNat % 256) % 256)

/-- spec/41_control_arith.md R83: `Annn` sets I to nnn and moves PC past the word. -/
def Obligations.IndexWordSetsI : Prop :=
  ∀ s : State, s.PcInRange → matchesPattern s.wordAtPc (0xF000, 0xA000) = true → ∃ t : State, step s = .next t ∧
    t.i.toNat = s.wordAtPc.toNat % 4096 ∧ t.pc = s.postFetchPc ∧
    SameRegsBut [] s t ∧ SameInert s t ∧ SameMemory s t ∧ SameDisplay s t

/-- spec/42_display.md R87: 0x00E0 unsets every pixel whatever the display held, leaves VF and every other register, and
moves PC past the word; the neighbours 0x00E1, 0x01E0 and 0x00F0 do nothing but move PC. -/
def Obligations.ClearWordUnsetsEveryPixel : Prop :=
  ∀ s : State, s.PcInRange →
    (s.wordAtPc = 0x00E0 → ∃ t : State, step s = .next t ∧
      (∀ r c, t.pixel r c = false) ∧ t.pc = s.postFetchPc ∧
      SameRegsBut [] s t ∧ t.i = s.i ∧ SameInert s t ∧ SameMemory s t) ∧
    ((s.wordAtPc = 0x00E1 ∨ s.wordAtPc = 0x01E0 ∨ s.wordAtPc = 0x00F0) → step s = .next (s.setPc s.postFetchPc))

/-- spec/42_display.md R89: `Dxyn` draws the n sprite bytes from I at the origin in V[x] and V[y], sets VF by the
collisions, and moves PC past the word. It rests on the spec's decisions D6 (log 2) and D7 (log 3). -/
def Obligations.DrawWordDrawsItsSprite : Prop :=
  ∀ s : State, s.PcInRange → matchesPattern s.wordAtPc (0xF000, 0xD000) = true → ∃ t : State, step s = .next t ∧
    Drawn s t ((s.readReg (wordX s.wordAtPc)).toNat % 64) ((s.readReg (wordY s.wordAtPc)).toNat % 32)
      (s.wordAtPc.toNat % 16) ∧
    t.pc = s.postFetchPc ∧ SameRegsBut [15] s t ∧ t.i = s.i ∧ SameInert s t ∧ SameMemory s t

/-- spec/40_cycle.md R74: a word that no supported pattern matches moves PC past it and does nothing else, and the step
still answers a frame. -/
def Obligations.OtherWordsStepAsNoOps : Prop :=
  ∀ (s : State) (Keys : Type) (keys : Keys), s.PcInRange →
    isSupported s.wordAtPc = false →
    step s = .next (s.setPc s.postFetchPc) ∧ stepPort keys s = .next (s.setPc s.postFetchPc, s.disp)
end

