-- ==== Sys2Proof/Laws/State.lean ====
section
/-! SUPPORT. One lemma per field per update of State, and one per read: later proofs unfold no record update. -/

namespace Sys2Proof.Machine

variable (s : State)

/-! writeReg -/

@[simp] theorem State.writeReg_i (x : RegIdx) (b : Byte) : (s.writeReg x b).i = s.i := rfl

@[simp] theorem State.writeReg_pc (x : RegIdx) (b : Byte) : (s.writeReg x b).pc = s.pc := rfl

@[simp] theorem State.writeReg_sp (x : RegIdx) (b : Byte) : (s.writeReg x b).sp = s.sp := rfl

@[simp] theorem State.writeReg_dt (x : RegIdx) (b : Byte) : (s.writeReg x b).dt = s.dt := rfl

@[simp] theorem State.writeReg_st (x : RegIdx) (b : Byte) : (s.writeReg x b).st = s.st := rfl

@[simp] theorem State.writeReg_mem (x : RegIdx) (b : Byte) : (s.writeReg x b).mem = s.mem := rfl

@[simp] theorem State.writeReg_disp (x : RegIdx) (b : Byte) : (s.writeReg x b).disp = s.disp := rfl

@[simp] theorem State.writeReg_readMem (x : RegIdx) (b : Byte) (k : Addr) :
    (s.writeReg x b).readMem k = s.readMem k := rfl

@[simp] theorem State.writeReg_pixel (x : RegIdx) (b : Byte) (r' : Row) (c' : Col) :
    (s.writeReg x b).pixel r' c' = s.pixel r' c' := rfl

theorem State.writeReg_readReg (x : RegIdx) (b : Byte) (y : RegIdx) :
    (s.writeReg x b).readReg y = if y = x then b else s.readReg y := by
  simp only [State.writeReg, State.readReg, Vector.get_eq_getElem, Vector.getElem_set, Fin.ext_iff, eq_comm]

@[simp] theorem State.writeReg_readReg_same (x : RegIdx) (b : Byte) : (s.writeReg x b).readReg x = b := by
  simp [State.writeReg_readReg]

@[simp] theorem State.writeReg_readReg_of_ne {x y : RegIdx} (h : y ≠ x) (b : Byte) :
    (s.writeReg x b).readReg y = s.readReg y := by
  simp [State.writeReg_readReg, h]

/-! setI -/

@[simp] theorem State.setI_v (w : Word) : (s.setI w).v = s.v := rfl

@[simp] theorem State.setI_pc (w : Word) : (s.setI w).pc = s.pc := rfl

@[simp] theorem State.setI_sp (w : Word) : (s.setI w).sp = s.sp := rfl

@[simp] theorem State.setI_dt (w : Word) : (s.setI w).dt = s.dt := rfl

@[simp] theorem State.setI_st (w : Word) : (s.setI w).st = s.st := rfl

@[simp] theorem State.setI_mem (w : Word) : (s.setI w).mem = s.mem := rfl

@[simp] theorem State.setI_disp (w : Word) : (s.setI w).disp = s.disp := rfl

@[simp] theorem State.setI_readReg (w : Word) (y : RegIdx) :
    (s.setI w).readReg y = s.readReg y := rfl

@[simp] theorem State.setI_readMem (w : Word) (k : Addr) :
    (s.setI w).readMem k = s.readMem k := rfl

@[simp] theorem State.setI_pixel (w : Word) (r' : Row) (c' : Col) :
    (s.setI w).pixel r' c' = s.pixel r' c' := rfl

@[simp] theorem State.setI_i (w : Word) : (s.setI w).i = w := rfl

/-! setPc -/

@[simp] theorem State.setPc_v (w : Word) : (s.setPc w).v = s.v := rfl

@[simp] theorem State.setPc_i (w : Word) : (s.setPc w).i = s.i := rfl

@[simp] theorem State.setPc_sp (w : Word) : (s.setPc w).sp = s.sp := rfl

@[simp] theorem State.setPc_dt (w : Word) : (s.setPc w).dt = s.dt := rfl

@[simp] theorem State.setPc_st (w : Word) : (s.setPc w).st = s.st := rfl

@[simp] theorem State.setPc_mem (w : Word) : (s.setPc w).mem = s.mem := rfl

@[simp] theorem State.setPc_disp (w : Word) : (s.setPc w).disp = s.disp := rfl

@[simp] theorem State.setPc_readReg (w : Word) (y : RegIdx) :
    (s.setPc w).readReg y = s.readReg y := rfl

@[simp] theorem State.setPc_readMem (w : Word) (k : Addr) :
    (s.setPc w).readMem k = s.readMem k := rfl

@[simp] theorem State.setPc_pixel (w : Word) (r' : Row) (c' : Col) :
    (s.setPc w).pixel r' c' = s.pixel r' c' := rfl

@[simp] theorem State.setPc_pc (w : Word) : (s.setPc w).pc = w := rfl

/-! setPixel -/

@[simp] theorem State.setPixel_v (r : Row) (c : Col) (p : Pixel) : (s.setPixel r c p).v = s.v := rfl

@[simp] theorem State.setPixel_i (r : Row) (c : Col) (p : Pixel) : (s.setPixel r c p).i = s.i := rfl

@[simp] theorem State.setPixel_pc (r : Row) (c : Col) (p : Pixel) : (s.setPixel r c p).pc = s.pc := rfl

@[simp] theorem State.setPixel_sp (r : Row) (c : Col) (p : Pixel) : (s.setPixel r c p).sp = s.sp := rfl

@[simp] theorem State.setPixel_dt (r : Row) (c : Col) (p : Pixel) : (s.setPixel r c p).dt = s.dt := rfl

@[simp] theorem State.setPixel_st (r : Row) (c : Col) (p : Pixel) : (s.setPixel r c p).st = s.st := rfl

@[simp] theorem State.setPixel_mem (r : Row) (c : Col) (p : Pixel) : (s.setPixel r c p).mem = s.mem := rfl

@[simp] theorem State.setPixel_readReg (r : Row) (c : Col) (p : Pixel) (y : RegIdx) :
    (s.setPixel r c p).readReg y = s.readReg y := rfl

@[simp] theorem State.setPixel_readMem (r : Row) (c : Col) (p : Pixel) (k : Addr) :
    (s.setPixel r c p).readMem k = s.readMem k := rfl

theorem State.setPixel_pixel (r : Row) (c : Col) (p : Pixel) (r' : Row) (c' : Col) :
    (s.setPixel r c p).pixel r' c' = if r' = r ∧ c' = c then p else s.pixel r' c' := by
  simp only [State.setPixel, State.pixel, Vector.get_eq_getElem, Vector.getElem_set, Fin.ext_iff]
  by_cases hr : r.val = r'.val
  · simp [hr, Vector.getElem_set, eq_comm]
  · simp [hr, Ne.symm hr]

/-! clearDisplay -/

@[simp] theorem State.clearDisplay_v : s.clearDisplay.v = s.v := rfl

@[simp] theorem State.clearDisplay_i : s.clearDisplay.i = s.i := rfl

@[simp] theorem State.clearDisplay_pc : s.clearDisplay.pc = s.pc := rfl

@[simp] theorem State.clearDisplay_sp : s.clearDisplay.sp = s.sp := rfl

@[simp] theorem State.clearDisplay_dt : s.clearDisplay.dt = s.dt := rfl

@[simp] theorem State.clearDisplay_st : s.clearDisplay.st = s.st := rfl

@[simp] theorem State.clearDisplay_mem : s.clearDisplay.mem = s.mem := rfl

@[simp] theorem State.clearDisplay_readReg (y : RegIdx) :
    s.clearDisplay.readReg y = s.readReg y := rfl

@[simp] theorem State.clearDisplay_readMem (k : Addr) :
    s.clearDisplay.readMem k = s.readMem k := rfl

@[simp] theorem State.clearDisplay_disp : s.clearDisplay.disp = Display.blank := rfl

@[simp] theorem State.clearDisplay_pixel (r : Row) (c : Col) : s.clearDisplay.pixel r c = false := by
  simp [State.pixel, State.clearDisplay, Display.blank, Vector.get_eq_getElem]

/-! writeMem -/

@[simp] theorem State.writeMem_v (a : Addr) (x : Byte) : (s.writeMem a x).v = s.v := rfl

@[simp] theorem State.writeMem_i (a : Addr) (x : Byte) : (s.writeMem a x).i = s.i := rfl

@[simp] theorem State.writeMem_pc (a : Addr) (x : Byte) : (s.writeMem a x).pc = s.pc := rfl

@[simp] theorem State.writeMem_sp (a : Addr) (x : Byte) : (s.writeMem a x).sp = s.sp := rfl

@[simp] theorem State.writeMem_dt (a : Addr) (x : Byte) : (s.writeMem a x).dt = s.dt := rfl

@[simp] theorem State.writeMem_st (a : Addr) (x : Byte) : (s.writeMem a x).st = s.st := rfl

@[simp] theorem State.writeMem_disp (a : Addr) (x : Byte) : (s.writeMem a x).disp = s.disp := rfl

@[simp] theorem State.writeMem_readReg (a : Addr) (x : Byte) (y : RegIdx) :
    (s.writeMem a x).readReg y = s.readReg y := rfl

@[simp] theorem State.writeMem_pixel (a : Addr) (x : Byte) (r' : Row) (c' : Col) :
    (s.writeMem a x).pixel r' c' = s.pixel r' c' := rfl

/-! clearFlag -/

@[simp] theorem State.clearFlag_i : s.clearFlag.i = s.i := rfl

@[simp] theorem State.clearFlag_pc : s.clearFlag.pc = s.pc := rfl

@[simp] theorem State.clearFlag_sp : s.clearFlag.sp = s.sp := rfl

@[simp] theorem State.clearFlag_dt : s.clearFlag.dt = s.dt := rfl

@[simp] theorem State.clearFlag_st : s.clearFlag.st = s.st := rfl

@[simp] theorem State.clearFlag_mem : s.clearFlag.mem = s.mem := rfl

@[simp] theorem State.clearFlag_disp : s.clearFlag.disp = s.disp := rfl

@[simp] theorem State.clearFlag_readMem (k : Addr) :
    s.clearFlag.readMem k = s.readMem k := rfl

@[simp] theorem State.clearFlag_pixel (r' : Row) (c' : Col) :
    s.clearFlag.pixel r' c' = s.pixel r' c' := rfl

theorem State.clearFlag_readReg (y : RegIdx) : s.clearFlag.readReg y = if y = flagReg then 0 else s.readReg y :=
  s.writeReg_readReg flagReg 0 y

@[simp] theorem State.clearFlag_readReg_flag : s.clearFlag.readReg flagReg = 0 := by simp [State.clearFlag_readReg]

@[simp] theorem State.clearFlag_readReg_of_ne {y : RegIdx} (h : y ≠ flagReg) : s.clearFlag.readReg y = s.readReg y := by
  simp [State.clearFlag_readReg, h]

/-! flagCollision -/

@[simp] theorem State.flagCollision_i (hit : Bool) : (s.flagCollision hit).i = s.i := by
  cases hit <;> rfl

@[simp] theorem State.flagCollision_pc (hit : Bool) : (s.flagCollision hit).pc = s.pc := by
  cases hit <;> rfl

@[simp] theorem State.flagCollision_sp (hit : Bool) : (s.flagCollision hit).sp = s.sp := by
  cases hit <;> rfl

@[simp] theorem State.flagCollision_dt (hit : Bool) : (s.flagCollision hit).dt = s.dt := by
  cases hit <;> rfl

@[simp] theorem State.flagCollision_st (hit : Bool) : (s.flagCollision hit).st = s.st := by
  cases hit <;> rfl

@[simp] theorem State.flagCollision_mem (hit : Bool) : (s.flagCollision hit).mem = s.mem := by
  cases hit <;> rfl

@[simp] theorem State.flagCollision_disp (hit : Bool) : (s.flagCollision hit).disp = s.disp := by
  cases hit <;> rfl

@[simp] theorem State.flagCollision_readMem (hit : Bool) (k : Addr) :
    (s.flagCollision hit).readMem k = s.readMem k := by
  cases hit <;> rfl

@[simp] theorem State.flagCollision_pixel (hit : Bool) (r' : Row) (c' : Col) :
    (s.flagCollision hit).pixel r' c' = s.pixel r' c' := by
  cases hit <;> rfl

theorem State.flagCollision_readReg (hit : Bool) (y : RegIdx) :
    (s.flagCollision hit).readReg y = if hit = true ∧ y = flagReg then 1 else s.readReg y := by
  cases hit <;> simp [State.flagCollision, State.writeReg_readReg]

/-! reset -/

@[simp] theorem State.reset_i : State.reset.i = 0 := rfl

@[simp] theorem State.reset_pc : State.reset.pc = 0x200 := rfl

@[simp] theorem State.reset_sp : State.reset.sp = 0 := rfl

@[simp] theorem State.reset_dt : State.reset.dt = 0 := rfl

@[simp] theorem State.reset_st : State.reset.st = 0 := rfl

@[simp] theorem State.reset_mem : State.reset.mem = [] := rfl

@[simp] theorem State.reset_disp : State.reset.disp = Display.blank := rfl

@[simp] theorem State.reset_readReg (x : RegIdx) : State.reset.readReg x = 0 := by
  simp [State.reset, State.readReg, Vector.get_eq_getElem]

@[simp] theorem State.reset_pixel (r : Row) (c : Col) : State.reset.pixel r c = false := by
  simp [State.reset, State.pixel, Display.blank, Vector.get_eq_getElem]

@[simp] theorem State.reset_readMem (a : Addr) : State.reset.readMem a = 0 := rfl

end Sys2Proof.Machine
end

