-- ==== Sys2Proof/Laws/Memory.lean ====
section
/-! SUPPORT. Memory: a read after a write, the canonical form, and equal memories being equal data. -/

namespace Sys2Proof.Machine

@[simp] theorem Memory.wfFrom_nil (lo : Nat) : Memory.wfFrom lo [] = true := rfl

@[simp] theorem Memory.wfFrom_cons (lo a : Nat) (b : Byte) (rest : Memory) :
    Memory.wfFrom lo ((a, b) :: rest) = true ↔ lo ≤ a ∧ a < 4096 ∧ b ≠ 0 ∧ Memory.wfFrom (a + 1) rest = true := by
  simp [Memory.wfFrom, and_assoc]

theorem Memory.wfFrom_mono {lo lo' : Nat} (h : lo' ≤ lo) {m : Memory} (hm : Memory.wfFrom lo m = true) :
    Memory.wfFrom lo' m = true := by
  cases m with
  | nil => rfl
  | cons c rest =>
    obtain ⟨a, b⟩ := c
    simp only [Memory.wfFrom_cons] at hm ⊢
    exact ⟨h.trans hm.1, hm.2⟩

/-- A canonical list from `lo` on says nothing about an address below `lo`. -/
theorem Memory.byteAt_of_lt {m : Memory} {lo k : Nat} (hm : Memory.wfFrom lo m = true) (hk : k < lo) :
    m.byteAt k = 0 := by
  induction m generalizing lo with
  | nil => rfl
  | cons c rest ih =>
    obtain ⟨a, b⟩ := c
    simp only [Memory.wfFrom_cons] at hm
    obtain ⟨h1, -, -, h2⟩ := hm
    rw [Memory.byteAt, if_neg (by omega)]
    exact ih h2 (by omega)

/-- A read after a write, in a canonical memory: the written byte at the written key, the byte of before elsewhere. -/
theorem Memory.byteAt_setByte {m : Memory} {lo : Nat} (hm : Memory.wfFrom lo m = true) (k : Nat) (x : Byte) (k' : Nat) :
    (m.setByte k x).byteAt k' = if k' = k then x else m.byteAt k' := by
  induction m generalizing lo with
  | nil =>
    by_cases hx : x = Memory.unlisted <;> by_cases hk : k = k' <;>
      simp [Memory.setByte, Memory.byteAt, hx, hk, @eq_comm _ k' k]
  | cons c rest ih =>
    obtain ⟨a, b⟩ := c
    simp only [Memory.wfFrom_cons] at hm
    obtain ⟨-, -, -, hrest⟩ := hm
    rw [Memory.setByte]
    by_cases h1 : k < a
    · have h0 : Memory.byteAt rest k = 0 := Memory.byteAt_of_lt hrest (by omega)
      by_cases hx : x = Memory.unlisted
      · by_cases hk : k' = k
        · subst hk
          simpa [h1, hx, Memory.byteAt, show ¬ a = k' by omega, Memory.unlisted] using h0
        · simp [h1, hx, hk]
      · by_cases hk : k' = k
        · simp [h1, hx, hk, Memory.byteAt]
        · simp [h1, hx, hk, Memory.byteAt, Ne.symm hk]
    · by_cases h2 : k = a
      · subst h2
        have h0 : Memory.byteAt rest k = 0 := Memory.byteAt_of_lt hrest (by omega)
        by_cases hx : x = Memory.unlisted
        · by_cases hk : k' = k
          · subst hk
            simpa [hx, Memory.unlisted] using h0
          · simp [hx, hk, Memory.byteAt, Ne.symm hk]
        · by_cases hk : k = k' <;> simp [hx, hk, Memory.byteAt, @eq_comm _ k' k]
      · simp only [h1, h2, if_false, Memory.byteAt, ih hrest]
        by_cases hk : k' = k
        · subst hk
          simp [Ne.symm h2]
        · simp [hk]

/-- A write inside the address space keeps the canonical form. -/
theorem Memory.setByte_wfFrom {m : Memory} {lo k : Nat} (hm : Memory.wfFrom lo m = true) (h1 : lo ≤ k) (h2 : k < 4096)
    (x : Byte) : Memory.wfFrom lo (m.setByte k x) = true := by
  induction m generalizing lo with
  | nil =>
    by_cases hx : x = Memory.unlisted
    · simp [Memory.setByte, hx]
    · rw [Memory.setByte, if_neg hx]
      simp only [Memory.wfFrom_cons]
      exact ⟨h1, h2, hx, rfl⟩
  | cons c rest ih =>
    obtain ⟨a, b⟩ := c
    have hm' := hm
    simp only [Memory.wfFrom_cons] at hm'
    obtain ⟨h3, h4, h5, h6⟩ := hm'
    rw [Memory.setByte]
    by_cases hka : k < a
    · by_cases hx : x = Memory.unlisted
      · rw [if_pos hka, if_pos hx]
        exact hm
      · rw [if_pos hka, if_neg hx]
        simp only [Memory.wfFrom_cons]
        exact ⟨h1, h2, hx, hka, h4, h5, h6⟩
    · by_cases hk : k = a
      · by_cases hx : x = Memory.unlisted
        · rw [if_neg hka, if_pos hk, if_pos hx]
          exact Memory.wfFrom_mono (by omega) h6
        · rw [if_neg hka, if_pos hk, if_neg hx]
          simp only [Memory.wfFrom_cons]
          exact ⟨h1, h2, hx, hk ▸ h6⟩
      · rw [if_neg hka, if_neg hk]
        simp only [Memory.wfFrom_cons]
        exact ⟨h3, h4, h5, ih h6 (by omega)⟩

theorem Memory.setByte_wf {m : Memory} (hm : m.wf = true) {k : Nat} (hk : k < 4096) (x : Byte) :
    (m.setByte k x).wf = true :=
  Memory.setByte_wfFrom hm (Nat.zero_le k) hk x

/-- Two canonical memories that read the same everywhere are the same list. -/
theorem Memory.ext_of_wfFrom {m m' : Memory} {lo : Nat} (hm : Memory.wfFrom lo m = true)
    (hm' : Memory.wfFrom lo m' = true) (h : ∀ k, m.byteAt k = m'.byteAt k) : m = m' := by
  induction m generalizing m' lo with
  | nil =>
    cases m' with
    | nil => rfl
    | cons c' rest' =>
      obtain ⟨a', b'⟩ := c'
      simp only [Memory.wfFrom_cons] at hm'
      exact absurd (h a').symm (by simpa [Memory.byteAt, Memory.unlisted] using hm'.2.2.1)
  | cons c rest ih =>
    obtain ⟨a, b⟩ := c
    simp only [Memory.wfFrom_cons] at hm
    obtain ⟨h1, h2, h3, h4⟩ := hm
    cases m' with
    | nil => exact absurd (h a) (by simpa [Memory.byteAt, Memory.unlisted] using h3)
    | cons c' rest' =>
      obtain ⟨a', b'⟩ := c'
      simp only [Memory.wfFrom_cons] at hm'
      obtain ⟨h1', h2', h3', h4'⟩ := hm'
      have ha := h a
      have ha' := h a'
      simp only [Memory.byteAt, if_true] at ha ha'
      have heq : a = a' := by
        rcases Nat.lt_trichotomy a a' with hlt | heq | hlt
        · rw [if_neg (by omega), Memory.byteAt_of_lt h4' (by omega)] at ha
          exact absurd ha h3
        · exact heq
        · rw [if_neg (by omega), Memory.byteAt_of_lt h4 (by omega)] at ha'
          exact absurd ha'.symm h3'
      subst heq
      simp only [if_true] at ha
      subst ha
      rw [ih h4 h4' fun k => ?_]
      by_cases hk : a = k
      · subst hk
        rw [Memory.byteAt_of_lt h4 (by omega), Memory.byteAt_of_lt h4' (by omega)]
      · have := h k
        simpa [Memory.byteAt, hk] using this

theorem State.reset_mem_wf : State.reset.mem.wf = true := rfl

theorem State.writeMem_wf {s : State} (hs : s.mem.wf = true) (a : Addr) (x : Byte) : (s.writeMem a x).mem.wf = true :=
  Memory.setByte_wf hs a.isLt x

theorem State.writeMem_readMem {s : State} (hs : s.mem.wf = true) (a : Addr) (x : Byte) (k : Addr) :
    (s.writeMem a x).readMem k = if k = a then x else s.readMem k := by
  simp only [State.writeMem, State.readMem, Memory.byteAt_setByte hs, BitVec.toNat_inj]

end Sys2Proof.Machine
end

