-- ==== Sys2Proof/Laws/Boot.lean ====
section
/-! SUPPORT. Storing an image: it changes nothing but memory, keeps the canonical form, and takes one byte at a time. -/

namespace Sys2Proof.Machine

@[simp] theorem State.storeFrom_nil (s : State) (base : Nat) : s.storeFrom base [] = s := rfl

theorem State.storeFrom_cons (s : State) (base : Nat) (b : Byte) (rest : List Byte) :
    s.storeFrom base (b :: rest) = (s.writeMem (BitVec.ofNat 12 (base % 4096)) b).storeFrom (base + 1) rest := rfl

theorem State.storeFrom_wf {s : State} (hs : s.mem.wf = true) (base : Nat) (image : List Byte) :
    (s.storeFrom base image).mem.wf = true := by
  induction image generalizing s base with
  | nil => exact hs
  | cons b rest ih => exact ih (State.writeMem_wf hs _ b) (base + 1)

/-- An address outside the stored range reads as before. -/
theorem State.storeFrom_readMem_of_not_mem {s : State} (hs : s.mem.wf = true) {base : Nat} {image : List Byte}
    (hfit : base + image.length ≤ 4096) {a : Addr} (ha : a.toNat < base ∨ base + image.length ≤ a.toNat) :
    (s.storeFrom base image).readMem a = s.readMem a := by
  induction image generalizing s base with
  | nil => rfl
  | cons b rest ih =>
    simp only [List.length_cons] at hfit ha
    rw [State.storeFrom_cons, ih (State.writeMem_wf hs _ b) (by omega) (by omega), State.writeMem_readMem hs, if_neg]
    intro h
    have := congrArg BitVec.toNat h
    rw [BitVec.toNat_ofNat] at this
    omega

@[simp] theorem State.storeFrom_v (s : State) (base : Nat) (image : List Byte) : (s.storeFrom base image).v = s.v := by
  induction image generalizing s base with
  | nil => rfl
  | cons b rest ih => rw [State.storeFrom_cons, ih, State.writeMem_v]

@[simp] theorem State.storeFrom_i (s : State) (base : Nat) (image : List Byte) : (s.storeFrom base image).i = s.i := by
  induction image generalizing s base with
  | nil => rfl
  | cons b rest ih => rw [State.storeFrom_cons, ih, State.writeMem_i]

@[simp] theorem State.storeFrom_pc (s : State) (base : Nat) (image : List Byte) : (s.storeFrom base image).pc = s.pc := by
  induction image generalizing s base with
  | nil => rfl
  | cons b rest ih => rw [State.storeFrom_cons, ih, State.writeMem_pc]

@[simp] theorem State.storeFrom_sp (s : State) (base : Nat) (image : List Byte) : (s.storeFrom base image).sp = s.sp := by
  induction image generalizing s base with
  | nil => rfl
  | cons b rest ih => rw [State.storeFrom_cons, ih, State.writeMem_sp]

@[simp] theorem State.storeFrom_dt (s : State) (base : Nat) (image : List Byte) : (s.storeFrom base image).dt = s.dt := by
  induction image generalizing s base with
  | nil => rfl
  | cons b rest ih => rw [State.storeFrom_cons, ih, State.writeMem_dt]

@[simp] theorem State.storeFrom_st (s : State) (base : Nat) (image : List Byte) : (s.storeFrom base image).st = s.st := by
  induction image generalizing s base with
  | nil => rfl
  | cons b rest ih => rw [State.storeFrom_cons, ih, State.writeMem_st]

@[simp] theorem State.storeFrom_disp (s : State) (base : Nat) (image : List Byte) : (s.storeFrom base image).disp = s.disp := by
  induction image generalizing s base with
  | nil => rfl
  | cons b rest ih => rw [State.storeFrom_cons, ih, State.writeMem_disp]

end Sys2Proof.Machine
end

