-- ==== Sys2Proof/Laws/Draw.lean ====
section
/-! SUPPORT. Drawing: what one pixel does to the display and to VF, and what no part of a draw touches. -/

namespace Sys2Proof.Machine

@[simp] theorem forRange_zero {α : Type} (body : Nat → α → α) (a : α) : forRange 0 body a = a := rfl

theorem forRange_succ {α : Type} (n : Nat) (body : Nat → α → α) (a : α) :
    forRange (n + 1) body a = body n (forRange n body a) := rfl

/-- What every pass of a loop keeps, the loop keeps. -/
theorem forRange_keeps {α β : Type} {body : Nat → α → α} (f : α → β) (h : ∀ k a, f (body k a) = f a) (n : Nat) (a : α) :
    f (forRange n body a) = f a := by
  induction n with
  | zero => rfl
  | succ n ih => rw [forRange_succ, h, ih]

/-- A property that every pass establishes from itself holds after the loop. -/
theorem forRange_induct {α : Type} {body : Nat → α → α} (P : Nat → α → Prop) {a : α} (h0 : P 0 a)
    (h : ∀ k b, P k b → P (k + 1) (body k b)) (n : Nat) : P n (forRange n body a) := by
  induction n with
  | zero => exact h0
  | succ n ih => exact h n _ ih

/-- One sprite pixel flips the pixel it lands on when it is set, and no other. -/
theorem State.drawPixel_pixel (s : State) (r : Row) (c : Col) (p : Pixel) (r' : Row) (c' : Col) :
    (s.drawPixel r c p).pixel r' c' = if r' = r ∧ c' = c then s.pixel r c ^^ p else s.pixel r' c' := by
  simp only [State.drawPixel, State.flagCollision_pixel, State.setPixel_pixel]

/-- One sprite pixel sets VF on a collision, and writes no register otherwise. -/
theorem State.drawPixel_readReg (s : State) (r : Row) (c : Col) (p : Pixel) (y : RegIdx) :
    (s.drawPixel r c p).readReg y = if collides (s.pixel r c) p = true ∧ y = flagReg then 1 else s.readReg y := by
  simp only [State.drawPixel, State.flagCollision_readReg, State.setPixel_readReg]

/-- One row is eight pixels from the left, of the byte read at the start. -/
theorem State.drawRow_eq (s : State) (ox oy k : Nat) :
    s.drawRow ox oy k =
      forRange 8 (fun j t => t.drawPixel (landingRow k oy) (landingCol j ox) (spritePixel (s.readMem (spriteAddr s.i k)) j)) s := by
  unfold State.drawRow
  exact Eq.refl _

@[simp] theorem State.drawSprite_zero (s : State) (ox oy : Nat) : s.drawSprite ox oy 0 = s := by
  unfold State.drawSprite
  exact forRange_zero _ _

/-- A sprite of n + 1 rows is the sprite of n rows and then row n. -/
theorem State.drawSprite_succ (s : State) (ox oy n : Nat) :
    s.drawSprite ox oy (n + 1) = (s.drawSprite ox oy n).drawRow ox oy n := by
  unfold State.drawSprite
  exact forRange_succ _ _ _

theorem State.drawRow_readReg_of_ne (s : State) (ox oy k : Nat) {y : RegIdx} (h : y ≠ flagReg) :
    (s.drawRow ox oy k).readReg y = s.readReg y := by
  unfold State.drawRow
  exact forRange_keeps (fun t : State => t.readReg y) (fun j t => by simp [State.drawPixel_readReg, h]) _ _

theorem State.drawSprite_readReg_of_ne (s : State) (ox oy n : Nat) {y : RegIdx} (h : y ≠ flagReg) :
    (s.drawSprite ox oy n).readReg y = s.readReg y :=
  forRange_keeps (fun t => t.readReg y) (fun k t => t.drawRow_readReg_of_ne ox oy k h) n s

@[simp] theorem State.drawPixel_i (s : State) (r : Row) (c : Col) (p : Pixel) : (s.drawPixel r c p).i = s.i := by
  simp [State.drawPixel]

@[simp] theorem State.drawRow_i (s : State) (ox oy k : Nat) : (s.drawRow ox oy k).i = s.i := by
  unfold State.drawRow
  exact forRange_keeps (fun t : State => t.i) (fun _ _ => by simp) _ _

@[simp] theorem State.drawSprite_i (s : State) (ox oy n : Nat) : (s.drawSprite ox oy n).i = s.i :=
  forRange_keeps (fun t => t.i) (fun _ _ => by simp) n s

@[simp] theorem State.drawPixel_pc (s : State) (r : Row) (c : Col) (p : Pixel) : (s.drawPixel r c p).pc = s.pc := by
  simp [State.drawPixel]

@[simp] theorem State.drawRow_pc (s : State) (ox oy k : Nat) : (s.drawRow ox oy k).pc = s.pc := by
  unfold State.drawRow
  exact forRange_keeps (fun t : State => t.pc) (fun _ _ => by simp) _ _

@[simp] theorem State.drawSprite_pc (s : State) (ox oy n : Nat) : (s.drawSprite ox oy n).pc = s.pc :=
  forRange_keeps (fun t => t.pc) (fun _ _ => by simp) n s

@[simp] theorem State.drawPixel_sp (s : State) (r : Row) (c : Col) (p : Pixel) : (s.drawPixel r c p).sp = s.sp := by
  simp [State.drawPixel]

@[simp] theorem State.drawRow_sp (s : State) (ox oy k : Nat) : (s.drawRow ox oy k).sp = s.sp := by
  unfold State.drawRow
  exact forRange_keeps (fun t : State => t.sp) (fun _ _ => by simp) _ _

@[simp] theorem State.drawSprite_sp (s : State) (ox oy n : Nat) : (s.drawSprite ox oy n).sp = s.sp :=
  forRange_keeps (fun t => t.sp) (fun _ _ => by simp) n s

@[simp] theorem State.drawPixel_dt (s : State) (r : Row) (c : Col) (p : Pixel) : (s.drawPixel r c p).dt = s.dt := by
  simp [State.drawPixel]

@[simp] theorem State.drawRow_dt (s : State) (ox oy k : Nat) : (s.drawRow ox oy k).dt = s.dt := by
  unfold State.drawRow
  exact forRange_keeps (fun t : State => t.dt) (fun _ _ => by simp) _ _

@[simp] theorem State.drawSprite_dt (s : State) (ox oy n : Nat) : (s.drawSprite ox oy n).dt = s.dt :=
  forRange_keeps (fun t => t.dt) (fun _ _ => by simp) n s

@[simp] theorem State.drawPixel_st (s : State) (r : Row) (c : Col) (p : Pixel) : (s.drawPixel r c p).st = s.st := by
  simp [State.drawPixel]

@[simp] theorem State.drawRow_st (s : State) (ox oy k : Nat) : (s.drawRow ox oy k).st = s.st := by
  unfold State.drawRow
  exact forRange_keeps (fun t : State => t.st) (fun _ _ => by simp) _ _

@[simp] theorem State.drawSprite_st (s : State) (ox oy n : Nat) : (s.drawSprite ox oy n).st = s.st :=
  forRange_keeps (fun t => t.st) (fun _ _ => by simp) n s

@[simp] theorem State.drawPixel_mem (s : State) (r : Row) (c : Col) (p : Pixel) : (s.drawPixel r c p).mem = s.mem := by
  simp [State.drawPixel]

@[simp] theorem State.drawRow_mem (s : State) (ox oy k : Nat) : (s.drawRow ox oy k).mem = s.mem := by
  unfold State.drawRow
  exact forRange_keeps (fun t : State => t.mem) (fun _ _ => by simp) _ _

@[simp] theorem State.drawSprite_mem (s : State) (ox oy n : Nat) : (s.drawSprite ox oy n).mem = s.mem :=
  forRange_keeps (fun t => t.mem) (fun _ _ => by simp) n s

@[simp] theorem State.drawRow_readMem (s : State) (ox oy k : Nat) (a : Addr) : (s.drawRow ox oy k).readMem a = s.readMem a := by
  simp [State.readMem]

@[simp] theorem State.drawSprite_readMem (s : State) (ox oy n : Nat) (a : Addr) :
    (s.drawSprite ox oy n).readMem a = s.readMem a := by
  simp [State.readMem]

end Sys2Proof.Machine
end

