-- ==== Sys2Proof/Laws/Encoding.lean ====
section
/-! SUPPORT. Bytes, words and fields as numbers; taking apart what was put together, and putting together what was taken
apart. -/

namespace Sys2Proof

/-! The parts as numbers. -/

theorem highNibble_toNat (b : Byte) : (highNibble b).toNat = b.toNat / 16 := by
  rw [highNibble, BitVec.extractLsb'_toNat, Nat.shiftRight_eq_div_pow]
  omega

theorem lowNibble_toNat (b : Byte) : (lowNibble b).toNat = b.toNat % 16 := by
  rw [lowNibble, BitVec.extractLsb'_toNat, Nat.shiftRight_zero]

theorem highByte_toNat (w : Word) : (highByte w).toNat = w.toNat / 256 := by
  rw [highByte, BitVec.extractLsb'_toNat, Nat.shiftRight_eq_div_pow]
  omega

theorem lowByte_toNat (w : Word) : (lowByte w).toNat = w.toNat % 256 := by
  rw [lowByte, BitVec.extractLsb'_toNat, Nat.shiftRight_zero]

/-- A concatenation as a number: the left part is the more significant. -/
theorem append_toNat {n m : Nat} (a : BitVec n) (b : BitVec m) : (a ++ b).toNat = a.toNat * 2 ^ m + b.toNat := by
  rw [BitVec.toNat_append, ← Nat.shiftLeft_add_eq_or_of_lt b.isLt, Nat.shiftLeft_eq]

theorem wordOf_toNat (b1 b2 : Byte) : (wordOf b1 b2).toNat = b1.toNat * 256 + b2.toNat := append_toNat b1 b2

theorem immOf_toNat (a b : Nibble) : (immOf a b).toNat = a.toNat * 16 + b.toNat := append_toNat a b

theorem addrOf_toNat (a b c : Nibble) : (addrOf a b c).toNat = a.toNat * 256 + b.toNat * 16 + c.toNat := by
  have h1 : (addrOf a b c).toNat = (a ++ b : Byte).toNat * 2 ^ 4 + c.toNat := append_toNat (a ++ b : Byte) c
  have h2 : (a ++ b : Byte).toNat = a.toNat * 2 ^ 4 + b.toNat := append_toNat a b
  omega

theorem fieldOf_toNat (k : Fin 16) : (fieldOf k).toNat = k.val := by
  rw [fieldOf, BitVec.toNat_ofNat]
  omega

/-! Taking apart and putting together. -/

@[simp] theorem highByte_wordOf (b1 b2 : Byte) : highByte (wordOf b1 b2) = b1 := by
  apply BitVec.eq_of_toNat_eq
  rw [highByte_toNat, wordOf_toNat]
  omega

@[simp] theorem lowByte_wordOf (b1 b2 : Byte) : lowByte (wordOf b1 b2) = b2 := by
  apply BitVec.eq_of_toNat_eq
  rw [lowByte_toNat, wordOf_toNat]
  omega

@[simp] theorem wordOf_highByte_lowByte (w : Word) : wordOf (highByte w) (lowByte w) = w := by
  apply BitVec.eq_of_toNat_eq
  rw [wordOf_toNat, highByte_toNat, lowByte_toNat]
  omega

@[simp] theorem highNibble_immOf (a b : Nibble) : highNibble (immOf a b) = a := by
  apply BitVec.eq_of_toNat_eq
  rw [highNibble_toNat, immOf_toNat]
  omega

@[simp] theorem lowNibble_immOf (a b : Nibble) : lowNibble (immOf a b) = b := by
  apply BitVec.eq_of_toNat_eq
  rw [lowNibble_toNat, immOf_toNat]
  omega

@[simp] theorem immOf_highNibble_lowNibble (b : Byte) : immOf (highNibble b) (lowNibble b) = b := by
  apply BitVec.eq_of_toNat_eq
  rw [immOf_toNat, highNibble_toNat, lowNibble_toNat]
  omega

/-- The fields of two bytes make up the word of the two bytes. -/
@[simp] theorem splitFields_word (b1 b2 : Byte) : (splitFields b1 b2).word = wordOf b1 b2 := by
  simp [splitFields, Fields.word]

/-- Decoding a word made of two bytes is decoding the two bytes. -/
@[simp] theorem decodeWord_wordOf (b1 b2 : Byte) : decodeWord (wordOf b1 b2) = decode b1 b2 := by
  simp [decodeWord]

@[simp] theorem indexOf_fieldOf (k : Fin 16) : indexOf (fieldOf k) = k := Fin.ext (fieldOf_toNat k)

@[simp] theorem fieldOf_indexOf (k : Nibble) : fieldOf (indexOf k) = k := by
  simp [indexOf, fieldOf]

/-! The encoded words as numbers. -/

theorem encodeWord_jp_toNat (nnn : Addr) : (encodeWord (.jp nnn)).toNat = 0x1000 + nnn.toNat :=
  append_toNat (0x1 : Nibble) nnn

theorem encodeWord_ldI_toNat (nnn : Addr) : (encodeWord (.ldI nnn)).toNat = 0xA000 + nnn.toNat :=
  append_toNat (0xA : Nibble) nnn

theorem encodeWord_ldVImm_toNat (x : RegIdx) (nn : Byte) :
    (encodeWord (.ldVImm x nn)).toNat = 0x6000 + x.val * 256 + nn.toNat := by
  have h1 : (encodeWord (.ldVImm x nn)).toNat = ((0x6 : Nibble) ++ fieldOf x : Byte).toNat * 256 + nn.toNat :=
    append_toNat ((0x6 : Nibble) ++ fieldOf x : Byte) nn
  have h2 : ((0x6 : Nibble) ++ fieldOf x : Byte).toNat = 0x6 * 16 + (fieldOf x).toNat := append_toNat (0x6 : Nibble) (fieldOf x)
  rw [fieldOf_toNat] at h2
  omega

theorem encodeWord_addVImm_toNat (x : RegIdx) (nn : Byte) :
    (encodeWord (.addVImm x nn)).toNat = 0x7000 + x.val * 256 + nn.toNat := by
  have h1 : (encodeWord (.addVImm x nn)).toNat = ((0x7 : Nibble) ++ fieldOf x : Byte).toNat * 256 + nn.toNat :=
    append_toNat ((0x7 : Nibble) ++ fieldOf x : Byte) nn
  have h2 : ((0x7 : Nibble) ++ fieldOf x : Byte).toNat = 0x7 * 16 + (fieldOf x).toNat := append_toNat (0x7 : Nibble) (fieldOf x)
  rw [fieldOf_toNat] at h2
  omega

theorem encodeWord_drw_toNat (x y : RegIdx) (n : Height) :
    (encodeWord (.drw x y n)).toNat = 0xD000 + x.val * 256 + y.val * 16 + n.val := by
  have h1 : (encodeWord (.drw x y n)).toNat =
      ((0xD : Nibble) ++ fieldOf x : Byte).toNat * 256 + (fieldOf y ++ fieldOf n : Byte).toNat :=
    append_toNat ((0xD : Nibble) ++ fieldOf x : Byte) (fieldOf y ++ fieldOf n : Byte)
  have h2 : ((0xD : Nibble) ++ fieldOf x : Byte).toNat = 0xD * 16 + (fieldOf x).toNat := append_toNat (0xD : Nibble) (fieldOf x)
  have h3 : (fieldOf y ++ fieldOf n : Byte).toNat = (fieldOf y).toNat * 16 + (fieldOf n).toNat :=
    append_toNat (fieldOf y) (fieldOf n)
  rw [fieldOf_toNat] at h2
  rw [fieldOf_toNat, fieldOf_toNat] at h3
  omega

/-! Masks. -/

/-- A word matches (0xF000, k000) exactly when its major opcode field n0 is k. -/
theorem matchesPattern_major (w : Word) (k : Nibble) :
    matchesPattern w (0xF000, BitVec.ofNat 16 (k.toNat * 4096)) = true ↔ w.toNat / 4096 = k.toNat := by
  have hmask : (w &&& (0xF000 : Word)).toNat = w.toNat / 4096 * 4096 := by
    have h2 : w &&& (0xF000 : Word) = (w >>> 12) <<< 12 := by
      apply BitVec.eq_of_getLsbD_eq
      intro j hj
      have hF : (0xF000 : Word).getLsbD j = decide (12 ≤ j) := by
        have : ∀ j : Fin 16, (0xF000 : Word).getLsbD j.val = decide (12 ≤ j.val) := by decide
        exact this ⟨j, hj⟩
      rw [BitVec.getLsbD_and, hF]
      by_cases h : 12 ≤ j
      · simp [h, hj, show ¬ j < 12 by omega, show 12 + (j - 12) = j by omega]
      · simp [h, show j < 12 by omega]
    rw [h2, BitVec.toNat_shiftLeft, BitVec.toNat_ushiftRight, Nat.shiftRight_eq_div_pow, Nat.shiftLeft_eq]
    omega
  rw [matchesPattern, beq_iff_eq, ← BitVec.toNat_inj, hmask, BitVec.toNat_ofNat]
  omega

/-- A word matches (0xFFFF, m) exactly when it is m. -/
@[simp] theorem matchesPattern_exact (w m : Word) : matchesPattern w (0xFFFF, m) = true ↔ w = m := by
  have h : w &&& (0xFFFF : Word) = w := BitVec.and_allOnes
  rw [matchesPattern, beq_iff_eq, h]

end Sys2Proof
end

