-- ==== Sys2Proof/Laws/Fetch.lean ====
section
/-! SUPPORT. The fetch unit: the advance modulo 4096, the addresses read, and what two fetches leave. -/

namespace Sys2Proof.Machine

@[simp] theorem nextPc_toNat (pc : Word) : (nextPc pc).toNat = (pc.toNat + 1) % 4096 := by
  rw [nextPc, BitVec.toNat_ofNat]
  omega

@[simp] theorem State.postFetchPc_toNat (s : State) : s.postFetchPc.toNat = (s.pc.toNat + 2) % 4096 := by
  rw [State.postFetchPc, BitVec.toNat_ofNat]
  omega

theorem nextPc_nextPc (s : State) : nextPc (nextPc s.pc) = s.postFetchPc := by
  apply BitVec.eq_of_toNat_eq
  simp only [nextPc_toNat, State.postFetchPc_toNat]
  omega

/-- Below 4096 the fetch reads at PC itself. -/
theorem fetchAddr_of_inRange {pc : Word} (h : pc.toNat < 4096) : fetchAddr pc = BitVec.ofNat 12 pc.toNat := by
  rw [fetchAddr, Nat.mod_eq_of_lt h]

theorem fetchAddr_nextPc (pc : Word) : fetchAddr (nextPc pc) = BitVec.ofNat 12 ((pc.toNat + 1) % 4096) := by
  rw [fetchAddr, nextPc_toNat, Nat.mod_mod]

/-- The two fetch addresses of a step differ. -/
theorem fetchAddr_ne_next (pc : Word) : fetchAddr pc ≠ fetchAddr (nextPc pc) := by
  intro h
  have := congrArg BitVec.toNat h
  simp only [fetchAddr, nextPc_toNat, BitVec.toNat_ofNat] at this
  omega

/-- What two fetches do: two bytes read high byte first, and only PC changed. -/
theorem State.fetchTwo_eq (s : State) :
    s.fetchTwo = ((s.readMem (fetchAddr s.pc), s.readMem (fetchAddr (nextPc s.pc))), s.setPc s.postFetchPc) := by
  rw [← nextPc_nextPc]
  rfl

/-- The word a step fetches, for a PC in range. -/
theorem State.wordOf_fetchTwo {s : State} (h : s.PcInRange) : wordOf s.fetchTwo.1.1 s.fetchTwo.1.2 = s.wordAtPc := by
  rw [State.fetchTwo_eq, State.wordAtPc, fetchAddr_of_inRange h, fetchAddr_nextPc]

/-- A placed instruction is what the next step fetches, and only memory changes. -/
theorem State.placeInstr_fetch {s : State} (hs : s.mem.wf = true) (b1 b2 : Byte) :
    (s.placeInstr b1 b2).readMem (fetchAddr s.pc) = b1 ∧
      (s.placeInstr b1 b2).readMem (fetchAddr (nextPc s.pc)) = b2 ∧ (s.placeInstr b1 b2).pc = s.pc := by
  refine ⟨?_, ?_, rfl⟩
  · rw [State.placeInstr, State.writeMem_readMem (State.writeMem_wf hs _ _), if_neg (fetchAddr_ne_next _),
      State.writeMem_readMem hs, if_pos rfl]
  · rw [State.placeInstr, State.writeMem_readMem (State.writeMem_wf hs _ _), if_pos rfl]

/-- Placing an instruction keeps the canonical form. -/
theorem State.placeInstr_wf {s : State} (hs : s.mem.wf = true) (b1 b2 : Byte) : (s.placeInstr b1 b2).mem.wf = true :=
  State.writeMem_wf (State.writeMem_wf hs _ _) _ _

theorem State.withFetchWord_wf {s : State} (hs : s.mem.wf = true) (nbits w : Nat) :
    (s.withFetchWord nbits w).mem.wf = true :=
  State.placeInstr_wf hs _ _

end Sys2Proof.Machine
end

