-- ==== Sys2Proof/Laws/PerInstr.lean ====
section
/-! SUPPORT. The family EncodesItsRow: the word of a well-formed instruction matches the instruction's own row of
spec/opcode_table.json, for each constructor. -/

namespace Sys2Proof.Laws.EncodesItsRow

/-- The mask and match of an instruction's row (spec/30_encoding.md R59; the default row of R66 matches every word). -/
def row : Instr → Word × Word
  | .nop => (0xFFFF, 0x0000)
  | .cls => (0xFFFF, 0x00E0)
  | .jp _ => (0xF000, 0x1000)
  | .ldVImm _ _ => (0xF000, 0x6000)
  | .addVImm _ _ => (0xF000, 0x7000)
  | .ldI _ => (0xF000, 0xA000)
  | .drw _ _ _ => (0xF000, 0xD000)
  | .defaultNop _ => (0x0000, 0x0000)

/-- The encoded word matches the instruction's row. -/
def Statement (i : Instr) : Prop := i.wf = true → matchesPattern (encodeWord i) (row i) = true

theorem nop : Statement .nop := fun _ => by decide

theorem cls : Statement .cls := fun _ => by decide

theorem jp (nnn : Addr) : Statement (.jp nnn) := fun _ =>
  (matchesPattern_major _ 0x1).mpr (by
    change _ = 1
    rw [encodeWord_jp_toNat]
    omega)

theorem ldVImm (x : RegIdx) (nn : Byte) : Statement (.ldVImm x nn) := fun _ =>
  (matchesPattern_major _ 0x6).mpr (by
    change _ = 6
    rw [encodeWord_ldVImm_toNat]
    omega)

theorem addVImm (x : RegIdx) (nn : Byte) : Statement (.addVImm x nn) := fun _ =>
  (matchesPattern_major _ 0x7).mpr (by
    change _ = 7
    rw [encodeWord_addVImm_toNat]
    omega)

theorem ldI (nnn : Addr) : Statement (.ldI nnn) := fun _ =>
  (matchesPattern_major _ 0xA).mpr (by
    change _ = 10
    rw [encodeWord_ldI_toNat]
    omega)

theorem drw (x y : RegIdx) (n : Height) : Statement (.drw x y n) := fun _ =>
  (matchesPattern_major _ 0xD).mpr (by
    change _ = 13
    rw [encodeWord_drw_toNat]
    omega)

theorem defaultNop (w : Word) : Statement (.defaultNop w) := fun _ => by
  simp [matchesPattern, row, encodeWord]

end Sys2Proof.Laws.EncodesItsRow
end

