-- ==== Sys2Proof/Laws/Run.lean ====
section
/-! SUPPORT. Runs: one step at a time, for the host's run of states and the port's run of frames. -/

namespace Sys2Proof.Machine

theorem run_zero (s : State) : Sys2Proof.core.run 0 s = .next s := by
  simp only [Host.Core.run]

/-- A run that begins with a step to t is the rest of the run from t. -/
theorem run_succ_of_step {s t : State} (h : step s = .next t) (k : Nat) :
    Sys2Proof.core.run (k + 1) s = Sys2Proof.core.run k t := by
  have h' : Sys2Proof.core.step s = .next t := h
  simp only [Host.Core.run, h']

theorem stepPort_of_step {Keys : Type} (keys : Keys) {s t : State} (h : step s = .next t) :
    stepPort keys s = .next (t, t.disp) := by
  simp only [stepPort, h, State.snapshot]

end Sys2Proof.Machine
end

