-- ==== Sys2Proof/Tests/Slice0.lean ====
section
/-! SUPPORT. Tests, each against spec/95_test_vectors.md or the rule it names, and a witness for each statement with
hypotheses. -/

namespace Sys2Proof.Tests

open Sys2Proof.Machine

/-! WellFormed refuses a default-arm word that is a supported word, one for each pattern (spec/30_encoding.md R60). -/

theorem test_wf_refuses_nop_word : (Instr.defaultNop 0x0000).wf = false := by decide

theorem test_wf_refuses_cls_word : (Instr.defaultNop 0x00E0).wf = false := by decide

theorem test_wf_refuses_jp_word : (Instr.defaultNop 0x1FFF).wf = false := by decide

theorem test_wf_refuses_ld_word : (Instr.defaultNop 0x6000).wf = false := by decide

theorem test_wf_refuses_add_word : (Instr.defaultNop 0x7FFF).wf = false := by decide

theorem test_wf_refuses_ldI_word : (Instr.defaultNop 0xA000).wf = false := by decide

theorem test_wf_refuses_drw_word : (Instr.defaultNop 0xDFFF).wf = false := by decide

theorem test_wf_accepts_other_words :
    (Instr.defaultNop 0x00EE).wf = true ∧ (Instr.defaultNop 0x5FFF).wf = true ∧ (Instr.defaultNop 0xFFFF).wf = true := by
  decide

/-! Every constructor's decoding, the word written bit by bit from spec/opcode_table.json's `encoding`. -/

theorem test_decode_nop : decodeWord 0b0000000000000000 = .nop := by decide

theorem test_decode_cls : decodeWord 0b0000000011100000 = .cls := by decide

/-- `0001aaaaaaaaaaaa` with nnn = 0xABC. -/
theorem test_decode_jp : decodeWord 0b0001101010111100 = .jp 0xABC := by decide

/-- `0110xxxxkkkkkkkk` with x = 10, nn = 0x42. -/
theorem test_decode_ldVImm : decodeWord 0b0110101001000010 = .ldVImm 10 0x42 := by decide

/-- `0111xxxxkkkkkkkk` with x = 10, nn = 0xFF (V-DEC-3). -/
theorem test_decode_addVImm : decodeWord 0b0111101011111111 = .addVImm 10 0xFF := by decide

/-- `1010aaaaaaaaaaaa` with nnn = 0x20C (V-DEC-2). -/
theorem test_decode_ldI : decodeWord 0b1010001000001100 = .ldI 0x20C := by decide

/-- `1101xxxxyyyynnnn` with x = 1, y = 2, n = 15 (V-DEC-1). -/
theorem test_decode_drw : decodeWord 0b1101000100101111 = .drw 1 2 15 := by decide

/-- 0x00EE, 0x00E1, 0x01E0, 0x00F0 and 0x8124 are default-arm words (V-DEF-1, 3, 4, 5, 8). -/
theorem test_decode_defaultNop :
    decodeWord 0b0000000011101110 = .defaultNop 0x00EE ∧ decodeWord 0x00E1 = .defaultNop 0x00E1 ∧
      decodeWord 0x01E0 = .defaultNop 0x01E0 ∧ decodeWord 0x00F0 = .defaultNop 0x00F0 ∧
      decodeWord 0x8124 = .defaultNop 0x8124 := by
  decide

/-- The high byte comes first (spec/20_memory.md R38). -/
theorem test_encode_drw : encode (.drw 1 2 15) = [0xD1, 0x2F] := by decide

theorem test_decodeBytes_truncated : decodeBytes [0x00] = .error .truncated := by rfl

theorem test_decodeTableWord : decodeTableWord 16 0xA20C = some (.ldI 0x20C) := by decide

/-! Small states for the step tests: a word where the step fetches, and bytes of memory, pixels and registers. -/

/-- Reset with a word at 0x200. -/
def atReset (w : Nat) : State := State.reset.withFetchWord 16 w

/-- The bytes of a list stored from an address on. -/
def withBytes (s : State) (a : Nat) (bytes : List Byte) : State := s.storeFrom a bytes

/-- A DRW state: the word at 0x200, I = 0x300 and the sprite bytes there. -/
def drawState (w : Nat) (sprite : List Byte) : State := (withBytes (atReset w) 0x300 sprite).setI 0x300

/-- Does a property of the next state hold after one step? -/
def afterStep (s : State) (p : State → Bool) : Bool :=
  match step s with
  | .next t => p t
  | _ => false

/-- Does row r show exactly the set pixels of a list of columns? -/
def rowShows (s : State) (r : Row) (cols : List Col) : Bool :=
  (List.finRange 64).all fun c => s.pixel r c == cols.contains c

/-! Fetch (spec/40_cycle.md R67) -/

/-- W2: at 4095 the fetch reads address 4095 and sets PC to 0. -/
theorem test_fetch_wraps :
    (((State.reset.setPc 4095).writeMem 4095 0x12).fetch.1 = 0x12) ∧ (State.reset.setPc 4095).fetch.2.pc = 0 := by
  decide

/-- V-FET-4: at 0xFFF the word is MEM[0xFFF], MEM[0x000] = 0x1234, so PC = 0x234. -/
theorem test_step_fetch_across_end :
    afterStep (((State.reset.setPc 0xFFF).writeMem 0xFFF 0x12).writeMem 0x000 0x34) (fun t => t.pc == 0x234) = true := by
  decide

/-- V-FET-2: from 0xFFE a word that is no jump leaves PC = 0. -/
theorem test_step_pc_wraps : afterStep (State.reset.setPc 0xFFE) (fun t => t.pc == 0x000) = true := by decide

/-! NOP, JP, LD, ADD, LD I and the default arm -/

/-- V-NOP-1. -/
theorem test_nop : afterStep ((atReset 0x0000).writeReg 15 1) (fun t => t.pc == 0x202 && t.readReg 15 == 1) = true := by
  decide

/-- V-JP-1. -/
theorem test_jp : afterStep (atReset 0x1ABC) (fun t => t.pc == 0xABC) = true := by decide

/-- V-JP-5: a self-jump. -/
theorem test_jp_self : afterStep ((State.reset.setPc 0x208).withFetchWord 16 0x1208) (fun t => t.pc == 0x208) = true := by
  decide

/-- V-LD-1. -/
theorem test_ldVImm :
    afterStep ((atReset 0x6A42).writeReg 10 0x99) (fun t => t.readReg 10 == 0x42 && t.pc == 0x202) = true := by decide

/-- V-ADD-1: 250 + 10 is 4, and VF is unchanged. -/
theorem test_addVImm_wraps :
    afterStep ((atReset 0x730A).writeReg 3 250) (fun t => t.readReg 3 == 4 && t.readReg 15 == 0) = true := by decide

/-- V-ADD-6: VF as an ordinary register. -/
theorem test_addVImm_vf : afterStep ((atReset 0x7F01).writeReg 15 1) (fun t => t.readReg 15 == 2) = true := by decide

/-- V-LDI-3: bits 15:12 and the rest are replaced. -/
theorem test_ldI : afterStep ((atReset 0xA20C).setI 0xFABC) (fun t => t.i == 0x020C) = true := by decide

/-- V-DEF-2: 0x2206 is no call: PC and SP. -/
theorem test_defaultNop : afterStep (atReset 0x2206) (fun t => t.pc == 0x202 && t.sp == 0) = true := by decide

/-! CLS and DRW -/

/-- V-CLS-1: VF stays. -/
theorem test_cls :
    afterStep ((((atReset 0x00E0).setPixel 0 0 true).setPixel 31 63 true).writeReg 15 1)
      (fun t => rowShows t 0 [] && rowShows t 31 [] && t.readReg 15 == 1) = true := by
  decide +kernel

/-- V-DRW-7: origin (63, 31), two rows: both edges wrap. -/
theorem test_drw_wraps :
    afterStep (((drawState 0xD012 [0xFF, 0xFF]).writeReg 0 63).writeReg 1 31)
      (fun t => rowShows t 31 [63, 0, 1, 2, 3, 4, 5, 6] && rowShows t 0 [63, 0, 1, 2, 3, 4, 5, 6] && rowShows t 1 [] &&
        t.readReg 15 == 0) = true := by
  decide +kernel

/-- V-DRW-11: (0,0) is cleared, (0,1) set, and VF stays 1. -/
theorem test_drw_collision_is_sticky :
    afterStep ((drawState 0xD011 [0xC0]).setPixel 0 0 true) (fun t => rowShows t 0 [1] && t.readReg 15 == 1) =
      true := by
  decide +kernel

/-! The assembler syntax (spec/30_encoding.md R64, R65). -/

/-- P1 of spec/95_test_vectors.md: its listing gives its image. -/
theorem test_assemble_p1 :
    assemble [.instr (.ldVImm 0 0xFA), .instr (.addVImm 0 0x0A), .instr (.ldVImm 15 0x07), .instr (.addVImm 15 0xFF),
      .instr (.jp 0x208)] = [0x60, 0xFA, 0x70, 0x0A, 0x6F, 0x07, 0x7F, 0xFF, 0x12, 0x08] := by decide

/-- Data bytes stand where they are written (R65). -/
theorem test_assemble_data : assemble [.instr .cls, .byte 0x18, .byte 0x24] = [0x00, 0xE0, 0x18, 0x24] := by decide

/-- The spellings of R64. -/
theorem test_asmText :
    asmText (.addVImm 15 0xFF) = "ADD VF, 0xFF".toList ∧ asmText (.jp 0x208) = "JP 0x208".toList ∧
    asmText (.drw 0 10 15) = "DRW V0, VA, 15".toList ∧ asmText (.defaultNop 0x00EE) = ".word 0x00EE".toList := by
  decide

/-! DRW corners beyond the two per instruction: the order of the origin read (D7) and the sprite address (D6). -/

/-- V-DRW-13 (D7): oy is VF's value from before the clear. -/
theorem test_drw_origin_before_clear :
    afterStep (((drawState 0xD0F1 [0x80]).writeReg 0 5).writeReg 15 10)
      (fun t => rowShows t 10 [5] && rowShows t 0 [] && t.readReg 15 == 0) = true := by
  decide +kernel

/-- V-DRW-10 (D6): I = 0xFFF reads MEM[0xFFF] and then MEM[0x000]. -/
theorem test_drw_address_wraps :
    afterStep ((((atReset 0xD012).writeMem 0xFFF 0x80).writeMem 0x000 0x40).setI 0xFFF)
      (fun t => rowShows t 0 [0] && rowShows t 1 [1]) = true := by
  decide +kernel

/-! Load and boundary -/

/-- W1: the image 60 FA. -/
theorem test_launch_places_image :
    (match launch [0x60, 0xFA] with
      | .next t => t.mem == [(0x200, 0x60), (0x201, 0xFA)] && t.pc == 0x200
      | _ => false) = true := by
  decide

/-- W1: 3585 bytes are refused. -/
theorem test_launch_refuses_long_image : launch (List.replicate 3585 0) = .fault .imageTooLong := by
  rw [launch, load, if_pos (by rw [List.length_replicate]; decide)]

/-- Writing 0 takes the pair out: the canonical form. -/
theorem test_memory_canonical :
    (((State.reset.writeMem 5 1).writeMem 3 2).writeMem 5 0).mem = [(3, 2)] := by decide

/-- The frame is the display after the step. -/
theorem test_stepPort_frame :
    (match stepPort () ((atReset 0x00E0).setPixel 3 4 true) with
      | .next (_, frame) => (frame.get 3).get 4 == false
      | _ => false) = true := by
  decide

/-! Witnesses: a concrete state and operands that meet all hypotheses of each statement together, and for a statement of
several clauses one at the boundary of each. -/

theorem test_witness_DecodeOfEncodeIsIdentity :
    (Instr.jp 0xFFF).wf = true ∧ (Instr.drw 15 15 15).wf = true ∧ (Instr.defaultNop 0x0FFF).wf = true := by decide

theorem test_witness_AssembledInstructionsReadBack :
    ∀ i ∈ [Instr.jp 0x200, Instr.defaultNop 0x00EE, Instr.drw 15 0 15], i.wf = true := by decide

/-- The least and the greatest word of each clause. -/
theorem test_witness_OperandsAreTheFieldsOfTheWord :
    matchesPattern 0x1000 (0xF000, 0x1000) = true ∧ matchesPattern 0x1FFF (0xF000, 0x1000) = true ∧
    matchesPattern 0x6000 (0xF000, 0x6000) = true ∧ matchesPattern 0x6FFF (0xF000, 0x6000) = true ∧
    matchesPattern 0x7000 (0xF000, 0x7000) = true ∧ matchesPattern 0x7FFF (0xF000, 0x7000) = true ∧
    matchesPattern 0xA000 (0xF000, 0xA000) = true ∧ matchesPattern 0xAFFF (0xF000, 0xA000) = true ∧
    matchesPattern 0xD000 (0xF000, 0xD000) = true ∧ matchesPattern 0xDFFF (0xF000, 0xD000) = true := by decide

/-- The hypotheses of the clause on two rows. -/
theorem test_witness_WordSelectsTheOnePatternItMatches :
    (0xF000, 0x1000) ∈ supportedPatterns ∧ matchesPattern 0x1FFF (0xF000, 0x1000) = true := by decide

theorem test_witness_FetchReadsThenAdvances : State.reset.PcInRange ∧ (State.reset.setPc 4095).PcInRange := by decide

theorem test_witness_StepRunsTheDecodedInstruction :
    (atReset 0x6A42).PcInRange ∧
    (atReset 0x6A42).readMem (BitVec.ofNat 12 (atReset 0x6A42).pc.toNat) = 0x6A ∧
    (atReset 0x6A42).readMem (BitVec.ofNat 12 (((atReset 0x6A42).pc.toNat + 1) % 4096)) = 0x42 ∧
    decode 0x6A 0x42 = .ldVImm 10 0x42 := by decide

/-- The inner hypothesis of the port's clause: exec answers a next state. -/
theorem test_witness_StepRunsTheDecodedInstruction_port :
    exec (.ldVImm 10 0x42) ((atReset 0x6A42).setPc (atReset 0x6A42).postFetchPc) =
      .next (((atReset 0x6A42).setPc (atReset 0x6A42).postFetchPc).writeReg 10 0x42) := rfl

theorem test_witness_EveryStepCompletes : (State.reset.setPc 0xFFF).PcInRange := by decide

theorem test_witness_TheCoreNeverStopsByItself : (State.reset.setPc 0x000).PcInRange := by decide

theorem test_witness_EachFrameIsTheDisplayAfterItsStep : State.reset.PcInRange ∧ 0 < [(), ()].length := by decide

theorem test_witness_RunsDoNotDependOnTheKeys : [1, 2].length = [true, false].length := by decide

theorem test_witness_ResetValuesAreTheSpecs :
    launch [0x00, 0xE0] = .next (State.reset.storeFrom 0x200 [0x00, 0xE0]) ∧
    (0x1FF : Addr).toNat < 0x200 ∧ 0x200 + [0x00#8, 0xE0#8].length ≤ (0x202 : Addr).toNat := ⟨rfl, by decide⟩

theorem test_witness_EveryLaunchMeetsTheInvariant :
    launch [0x00, 0xE0] = .next (State.reset.storeFrom 0x200 [0x00, 0xE0]) := rfl

theorem test_witness_EveryStepKeepsTheInvariant :
    (atReset 0x1ABC).Inv ∧ afterStep (atReset 0x1ABC) (fun _ => true) = true := by decide

theorem test_witness_PcStaysInRange : afterStep (State.reset.setPc 0xFFF) (fun _ => true) = true := by decide

theorem test_witness_LoadCopiesTheImage :
    State.reset.mem.wf = true ∧ 3584 < (List.replicate 3585 0#8).length ∧ [0x60#8, 0xFA#8].length ≤ 3584 ∧ 1 < [0x60#8, 0xFA#8].length ∧
    (0x1FF : Addr).toNat < 0x200 ∧ 0x200 + [0x60#8, 0xFA#8].length ≤ (0x202 : Addr).toNat := by
  rw [List.length_replicate]
  decide

/-- A launch, a run from it, and an address on each side of the image. -/
theorem test_witness_FetchAlwaysSeesTheImageAsLoaded :
    launch [0x12, 0x00] = .next (State.reset.storeFrom 0x200 [0x12, 0x00]) ∧
    (∃ t, Sys2Proof.core.run 0 (State.reset.storeFrom 0x200 [0x12, 0x00]) = .next t) ∧
    1 < [0x12#8, 0x00#8].length ∧ (0x1FF : Addr).toNat < 0x200 ∧ 0x200 + [0x12#8, 0x00#8].length ≤ (0x202 : Addr).toNat :=
  ⟨rfl, ⟨State.reset.storeFrom 0x200 [0x12, 0x00], by simp only [Host.Core.run]⟩, by decide, by decide, by decide⟩

/-- A run of one step, of NoStepWritesMemory and of the launch clauses. -/
theorem test_witness_NoStepWritesMemory :
    ∃ t, Sys2Proof.core.run 1 (atReset 0x1200) = .next t := ⟨(atReset 0x1200).setPc 0x200, by
  simp only [Host.Core.run]
  rfl⟩

theorem test_witness_InertRegistersAreNeverReadOrWritten :
    launch [0x12, 0x00] = .next (State.reset.storeFrom 0x200 [0x12, 0x00]) ∧
    ∃ t, Sys2Proof.core.run 1 (State.reset.storeFrom 0x200 [0x12, 0x00]) = .next t :=
  ⟨rfl, (State.reset.storeFrom 0x200 [0x12, 0x00]).setPc 0x200, by
    simp only [Host.Core.run]
    rfl⟩

theorem test_witness_FirstStepRunsTheEntryPoint :
    launch [0x60, 0xFA] = .next (State.reset.storeFrom 0x200 [0x60, 0xFA]) := rfl

theorem test_witness_PlacedTableWordRunsNext : State.reset.mem.wf = true ∧ 0xFFFF < 65536 := by decide

/-- Both clauses at their boundaries: 0x1000 and 0x1FFF are jumps, 0x0FFF and 0x2000 are not. -/
theorem test_witness_OnlyJpLeavesThePostFetchPc :
    (atReset 0x1FFF).PcInRange ∧ afterStep (atReset 0x1FFF) (fun _ => true) = true ∧
    matchesPattern (atReset 0x1000).wordAtPc (0xF000, 0x1000) = true ∧
    matchesPattern (atReset 0x1FFF).wordAtPc (0xF000, 0x1000) = true ∧
    matchesPattern (atReset 0x0FFF).wordAtPc (0xF000, 0x1000) = false ∧
    matchesPattern (atReset 0x2000).wordAtPc (0xF000, 0x1000) = false := by decide

/-- A register that changes: V[10] by LD, VF by DRW. -/
theorem test_witness_OnlyThreeInstructionsWriteRegisters :
    (atReset 0x6A42).PcInRange ∧
    afterStep (atReset 0x6A42) (fun t => t.readReg 10 != (atReset 0x6A42).readReg 10) = true ∧
    afterStep ((atReset 0xD010).writeReg 15 9) (fun t => t.readReg 15 != 9) = true := by decide +kernel

/-- I changed by LD I; a pixel changed by CLS and by DRW. -/
theorem test_witness_OnlyTheNamedInstructionsWriteIndexAndDisplay :
    (atReset 0xA20C).PcInRange ∧ afterStep (atReset 0xA20C) (fun t => t.i != 0) = true ∧
    afterStep ((atReset 0x00E0).setPixel 3 4 true) (fun t => t.pixel 3 4 != true) = true ∧
    afterStep (drawState 0xD011 [0x80]) (fun t => t.pixel 0 0 != false) = true := by decide +kernel

/-- DRW with a pixel cleared, DRW with none, and words that leave VF alone, next to 6Fnn and 7Fnn. -/
theorem test_witness_VfRecordsWhetherAPixelWasCleared :
    (drawState 0xD011 [0x80]).PcInRange ∧
    matchesPattern (drawState 0xD011 [0x80]).wordAtPc (0xF000, 0xD000) = true ∧
    afterStep ((drawState 0xD011 [0x80]).setPixel 0 0 true) (fun t => t.pixel 0 0 == false) = true ∧
    afterStep (drawState 0xD011 [0x80]) (fun t => t.pixel 0 0 == true) = true ∧
    matchesPattern (atReset 0x6EFF).wordAtPc (0xF000, 0xD000) = false ∧
    matchesPattern (atReset 0x6EFF).wordAtPc (0xFF00, 0x6F00) = false ∧
    matchesPattern (atReset 0x6EFF).wordAtPc (0xFF00, 0x7F00) = false := by decide +kernel

/-- Two memories that agree on 0x200, 0x201 and the sprite byte 0x300, and differ at 0x400. -/
theorem test_witness_StepReadsOnlyFetchedAndSpriteBytes :
    (drawState 0xD011 [0x80]).PcInRange ∧
    ((drawState 0xD011 [0x80]).writeMem 0x400 1).readMem 0x200 = (drawState 0xD011 [0x80]).readMem 0x200 ∧
    ((drawState 0xD011 [0x80]).writeMem 0x400 1).readMem 0x201 = (drawState 0xD011 [0x80]).readMem 0x201 ∧
    ((drawState 0xD011 [0x80]).writeMem 0x400 1).readMem 0x300 = (drawState 0xD011 [0x80]).readMem 0x300 ∧
    matchesPattern (drawState 0xD011 [0x80]).wordAtPc (0xF000, 0xD000) = true ∧
    (drawState 0xD011 [0x80]).wordAtPc.toNat % 16 = 1 ∧
    ((drawState 0xD011 [0x80]).writeMem 0x400 1).mem ≠ (drawState 0xD011 [0x80]).mem ∧
    afterStep (drawState 0xD011 [0x80]) (fun _ => true) = true := by decide

theorem test_witness_DisplayReachesOnlyItselfAndVf :
    (atReset 0x6A42).PcInRange ∧ afterStep (atReset 0x6A42) (fun _ => true) = true ∧
    afterStep ((atReset 0x6A42).setPixel 3 4 true) (fun _ => true) = true ∧
    matchesPattern (atReset 0x6A42).wordAtPc (0xF000, 0xD000) = false := by decide

theorem test_witness_NoPixelIsDrawnTwiceInOneDraw :
    14 < 15 ∧ 7 < 8 ∧ landingRow 14 31 = landingRow 14 31 ∧ landingCol 7 63 = landingCol 7 63 := by decide

theorem test_witness_DrawingTwiceRestoresTheDisplay : (0 : RegIdx) ≠ 15 ∧ (14 : RegIdx) ≠ 15 := by decide

theorem test_witness_ZeroWordStepsAsNop : State.reset.PcInRange ∧ State.reset.wordAtPc = 0x0000 := by decide

/-- Any target, and the self-jump 0x1200 at 0x200. -/
theorem test_witness_JumpWordSetsPcToItsAddress :
    (atReset 0x1FFF).PcInRange ∧ matchesPattern (atReset 0x1FFF).wordAtPc (0xF000, 0x1000) = true ∧
    matchesPattern (atReset 0x1200).wordAtPc (0xF000, 0x1000) = true ∧
    (atReset 0x1200).wordAtPc.toNat % 4096 = (atReset 0x1200).pc.toNat := by decide

theorem test_witness_LoadWordWritesItsImmediate :
    (atReset 0x6FFF).PcInRange ∧ matchesPattern (atReset 0x6FFF).wordAtPc (0xF000, 0x6000) = true := by decide

/-- Two ADD words to V[3] in a row. -/
theorem test_witness_AddWordAddsModulo256 :
    (withBytes (atReset 0x730A) 0x202 [0x73, 0xFF]).PcInRange ∧
    matchesPattern (withBytes (atReset 0x730A) 0x202 [0x73, 0xFF]).wordAtPc (0xF000, 0x7000) = true ∧
    afterStep (withBytes (atReset 0x730A) 0x202 [0x73, 0xFF])
      (fun t => matchesPattern t.wordAtPc (0xF000, 0x7000) && wordX t.wordAtPc == 3) = true := by decide

theorem test_witness_IndexWordSetsI :
    (atReset 0xAFFF).PcInRange ∧ matchesPattern (atReset 0xAFFF).wordAtPc (0xF000, 0xA000) = true := by decide

theorem test_witness_ClearWordUnsetsEveryPixel :
    (atReset 0x00E0).PcInRange ∧ (atReset 0x00E0).wordAtPc = 0x00E0 ∧
    (atReset 0x00E1).PcInRange ∧ (atReset 0x00E1).wordAtPc = 0x00E1 ∧
    (atReset 0x01E0).PcInRange ∧ (atReset 0x01E0).wordAtPc = 0x01E0 ∧
    (atReset 0x00F0).PcInRange ∧ (atReset 0x00F0).wordAtPc = 0x00F0 := by decide

theorem test_witness_DrawWordDrawsItsSprite :
    (atReset 0xDFFF).PcInRange ∧ matchesPattern (atReset 0xDFFF).wordAtPc (0xF000, 0xD000) = true := by decide

theorem test_witness_OtherWordsStepAsNoOps :
    (atReset 0x00EE).PcInRange ∧ isSupported (atReset 0x00EE).wordAtPc = false := by decide

end Sys2Proof.Tests
end

section
/-! SUPPORT. The proofs of the statements about the state: what each instruction does to each part of it
(spec/10_state.md). -/

namespace Sys2Proof

open Machine
open Laws.EncodesItsRow (row)

/-! Decoding and encoding: the fetched word is the word of the instruction it decodes to. -/

theorem indexOf_val (k : Nibble) : (indexOf k).val = k.toNat := rfl

@[simp] theorem encodeWord_dispatch (f : Fields) : encodeWord (dispatch f) = f.word := by
  have hw : f.word.toNat = (f.n0.toNat * 16 + f.n1.toNat) * 256 + (f.n2.toNat * 16 + f.n3.toNat) := by
    rw [Fields.word, wordOf_toNat, immOf_toNat, immOf_toNat]
  apply BitVec.eq_of_toNat_eq
  unfold dispatch
  split_ifs with hnop hcls hjp hld hadd hldI hdrw
  · obtain ⟨h0, h1, h2, h3⟩ := hnop
    rw [hw, h0, h1, h2, h3]
    rfl
  · obtain ⟨h0, h1, h2, h3⟩ := hcls
    rw [hw, h0, h1, h2, h3]
    rfl
  · have h0 : f.n0.toNat = 0x1 := congrArg BitVec.toNat hjp
    rw [encodeWord_jp_toNat, addrOf_toNat, hw]
    omega
  · have h0 : f.n0.toNat = 0x6 := congrArg BitVec.toNat hld
    rw [encodeWord_ldVImm_toNat, immOf_toNat, hw, indexOf_val]
    omega
  · have h0 : f.n0.toNat = 0x7 := congrArg BitVec.toNat hadd
    rw [encodeWord_addVImm_toNat, immOf_toNat, hw, indexOf_val]
    omega
  · have h0 : f.n0.toNat = 0xA := congrArg BitVec.toNat hldI
    rw [encodeWord_ldI_toNat, addrOf_toNat, hw]
    omega
  · have h0 : f.n0.toNat = 0xD := congrArg BitVec.toNat hdrw
    rw [encodeWord_drw_toNat, hw, indexOf_val, indexOf_val, indexOf_val]
    omega
  · rfl

/-- The word is that of the instruction it decodes to: no bit is dropped (spec/30_encoding.md R55). -/
@[simp] theorem encodeWord_decodeWord (w : Word) : encodeWord (decodeWord w) = w := by
  rw [decodeWord, decode, encodeWord_dispatch, splitFields_word, wordOf_highByte_lowByte]

theorem Fields.word_eq_iff (f g : Fields) : f.word = g.word ↔ f = g := by
  refine ⟨fun h => ?_, congrArg Fields.word⟩
  obtain ⟨a, b, c, d⟩ := f
  obtain ⟨a', b', c', d'⟩ := g
  have hhigh : immOf a b = immOf a' b' := by simpa [Fields.word] using congrArg highByte h
  have hlow : immOf c d = immOf c' d' := by simpa [Fields.word] using congrArg lowByte h
  rw [Fields.mk.injEq]
  exact ⟨by simpa using congrArg highNibble hhigh, by simpa using congrArg lowNibble hhigh,
    by simpa using congrArg highNibble hlow, by simpa using congrArg lowNibble hlow⟩

/-- A word matches (0xF000, k000) exactly when its field n0 is k (spec/30_encoding.md R59). -/
theorem Fields.matchesPattern_word (f : Fields) (k : Nibble) :
    matchesPattern f.word (0xF000, BitVec.ofNat 16 (k.toNat * 4096)) = true ↔ f.n0 = k := by
  rw [matchesPattern_major, Fields.word, wordOf_toNat, immOf_toNat, immOf_toNat, ← BitVec.toNat_inj]
  omega

theorem isSupported_word_iff (f : Fields) :
    isSupported f.word = true ↔
      f = ⟨0x0, 0x0, 0x0, 0x0⟩ ∨ f = ⟨0x0, 0x0, 0xE, 0x0⟩ ∨ f.n0 = 0x1 ∨ f.n0 = 0x6 ∨ f.n0 = 0x7 ∨ f.n0 = 0xA ∨
        f.n0 = 0xD := by
  rw [← Fields.word_eq_iff f ⟨0x0, 0x0, 0x0, 0x0⟩, ← Fields.word_eq_iff f ⟨0x0, 0x0, 0xE, 0x0⟩,
    ← f.matchesPattern_word 0x1, ← f.matchesPattern_word 0x6, ← f.matchesPattern_word 0x7, ← f.matchesPattern_word 0xA,
    ← f.matchesPattern_word 0xD, ← matchesPattern_exact, ← matchesPattern_exact]
  simp only [isSupported, supportedPatterns, List.any_cons, List.any_nil, Bool.or_false, Bool.or_eq_true]
  rfl

/-- Every dispatch key selects a well-formed instruction: the default arm is reached by no supported word (R60). -/
theorem dispatch_wf (f : Fields) : (dispatch f).wf = true := by
  unfold dispatch
  split_ifs with hnop hcls hjp hld hadd hldI hdrw
  case neg =>
    rw [Instr.wf, Bool.not_eq_true', Bool.eq_false_iff, Ne, isSupported_word_iff]
    rintro (rfl | rfl | h | h | h | h | h)
    · exact hnop ⟨rfl, rfl, rfl, rfl⟩
    · exact hcls ⟨rfl, rfl, rfl, rfl⟩
    · exact hjp h
    · exact hld h
    · exact hadd h
    · exact hldI h
    · exact hdrw h
  all_goals rfl

theorem decodeWord_wf (w : Word) : (decodeWord w).wf = true := dispatch_wf _

/-- The word of a well-formed instruction matches the instruction's own row. -/
theorem matchesPattern_row {i : Instr} (hi : i.wf = true) :
    matchesPattern (encodeWord i) (row i) = true := by
  cases i with
  | nop => exact Laws.EncodesItsRow.nop hi
  | cls => exact Laws.EncodesItsRow.cls hi
  | jp nnn => exact Laws.EncodesItsRow.jp nnn hi
  | ldVImm x nn => exact Laws.EncodesItsRow.ldVImm x nn hi
  | addVImm x nn => exact Laws.EncodesItsRow.addVImm x nn hi
  | ldI nnn => exact Laws.EncodesItsRow.ldI nnn hi
  | drw x y n => exact Laws.EncodesItsRow.drw x y n hi
  | defaultNop w => exact Laws.EncodesItsRow.defaultNop w hi

/-- Two patterns that one word matches agree on the bits both look at. -/
theorem matchesPattern_agree {w : Word} {p q : Word × Word} (hp : matchesPattern w p = true)
    (hq : matchesPattern w q = true) : p.2 &&& q.1 = q.2 &&& p.1 := by
  rw [matchesPattern, beq_iff_eq] at hp hq
  rw [← hp, ← hq, BitVec.and_assoc, BitVec.and_assoc, BitVec.and_comm p.1]

/-- No word matches two supported patterns: any two of them differ in a bit that both look at (R59). -/
theorem supportedPatterns_disjoint {w : Word} {p q : Word × Word} (hp : p ∈ supportedPatterns)
    (hq : q ∈ supportedPatterns) (hwp : matchesPattern w p = true) (hwq : matchesPattern w q = true) : p = q := by
  have hdiffer : ∀ p ∈ supportedPatterns, ∀ q ∈ supportedPatterns, p.2 &&& q.1 = q.2 &&& p.1 → p = q := by
    simp [supportedPatterns]
  exact hdiffer p hp q hq (matchesPattern_agree hwp hwq)

/-- A well-formed instruction's word matches the instruction's own pattern and no other supported one. -/
theorem matchesPattern_encodeWord {i : Instr} (hi : i.wf = true) {p : Word × Word} (hp : p ∈ supportedPatterns) :
    matchesPattern (encodeWord i) p = true ↔ row i = p := by
  refine ⟨fun h => ?_, fun h => h ▸ matchesPattern_row hi⟩
  by_cases hrow : row i ∈ supportedPatterns
  · exact supportedPatterns_disjoint hrow hp (matchesPattern_row hi) h
  · cases i with
    | defaultNop w =>
      have hsupp : isSupported w = true := List.any_eq_true.mpr ⟨p, hp, h⟩
      simp [Instr.wf, hsupp] at hi
    | _ => exact absurd (by simp [row, supportedPatterns]) hrow

@[simp] theorem wordX_encodeWord_ldVImm (x : RegIdx) (nn : Byte) : wordX (encodeWord (.ldVImm x nn)) = x := by
  apply Fin.ext
  change (encodeWord (.ldVImm x nn)).toNat / 256 % 16 = x.val
  rw [encodeWord_ldVImm_toNat]
  omega

@[simp] theorem wordX_encodeWord_addVImm (x : RegIdx) (nn : Byte) : wordX (encodeWord (.addVImm x nn)) = x := by
  apply Fin.ext
  change (encodeWord (.addVImm x nn)).toNat / 256 % 16 = x.val
  rw [encodeWord_addVImm_toNat]
  omega

/-! For a well-formed instruction, matching a supported pattern is being that instruction. -/

theorem matchesPattern_iff_jp {i : Instr} (hi : i.wf = true) :
    matchesPattern (encodeWord i) (0xF000, 0x1000) = true ↔ ∃ nnn, i = .jp nnn := by
  rw [matchesPattern_encodeWord hi (by decide)]
  cases i <;> simp [row]

theorem matchesPattern_iff_drw {i : Instr} (hi : i.wf = true) :
    matchesPattern (encodeWord i) (0xF000, 0xD000) = true ↔ ∃ x y n, i = .drw x y n := by
  rw [matchesPattern_encodeWord hi (by decide)]
  cases i <;> simp [row]

/-- A word whose high byte is b matches (0xFF00, b00). -/
theorem matchesPattern_highByte (b nn : Byte) : matchesPattern (b ++ nn) (0xFF00, b ++ (0 : Byte)) = true := by
  have hmask : (0xFF00 : Word) = (0xFF : Byte) ++ (0x00 : Byte) := rfl
  have hb : b &&& (0xFF : Byte) = b := BitVec.and_allOnes
  have hnn : nn &&& (0x00 : Byte) = 0 := BitVec.and_zero
  rw [matchesPattern, beq_iff_eq, hmask, BitVec.and_append, hb, hnn]

end Sys2Proof

namespace Sys2Proof.Machine

/-! What an instruction does to the state, and what every step does. -/

/-- The state an instruction leaves when it is executed on s (spec/40_cycle.md R70), one case per instruction. -/
inductive Executes (s : State) : Instr → State → Prop
  | nop : Executes s .nop s
  | cls : Executes s .cls s.clearDisplay
  | jp (nnn : Addr) : Executes s (.jp nnn) (s.setPc (zext16 nnn))
  | ldVImm (x : RegIdx) (nn : Byte) : Executes s (.ldVImm x nn) (s.writeReg x nn)
  | addVImm (x : RegIdx) (nn : Byte) : Executes s (.addVImm x nn) (s.writeReg x (addMod256 (s.readReg x) nn))
  | ldI (nnn : Addr) : Executes s (.ldI nnn) (s.setI (zext16 nnn))
  | drw (x y : RegIdx) (n : Height) : Executes s (.drw x y n)
      (s.clearFlag.drawSprite (originCol (s.readReg x)) (originRow (s.readReg y)) n.val)
  | defaultNop (w : Word) : Executes s (.defaultNop w) s

theorem exec_executes (i : Instr) (s : State) : ∃ t, exec i s = .next t ∧ Executes s i t := by
  cases i with
  | nop => exact ⟨_, rfl, .nop⟩
  | cls => exact ⟨_, rfl, .cls⟩
  | jp nnn => exact ⟨_, rfl, .jp nnn⟩
  | ldVImm x nn => exact ⟨_, rfl, .ldVImm x nn⟩
  | addVImm x nn => exact ⟨_, rfl, .addVImm x nn⟩
  | ldI nnn => exact ⟨_, rfl, .ldI nnn⟩
  | drw x y n => exact ⟨_, rfl, .drw x y n⟩
  | defaultNop w => exact ⟨_, rfl, .defaultNop w⟩

theorem exec_eq_next_iff {i : Instr} {s t : State} : exec i s = .next t ↔ Executes s i t := by
  refine ⟨fun h => ?_, fun h => ?_⟩
  · obtain ⟨u, hu, hex⟩ := exec_executes i s
    rw [h, Host.Outcome.next.injEq] at hu
    exact hu ▸ hex
  · cases h <;> rfl

/-- A step executes the instruction that the two fetched bytes decode to, on the state with PC past them
(spec/40_cycle.md R71). -/
theorem step_eq_exec (s : State) :
    step s = exec (decode (s.readMem (fetchAddr s.pc)) (s.readMem (fetchAddr (nextPc s.pc)))) (s.setPc s.postFetchPc) := by
  rw [step, State.fetchTwo_eq]

theorem exists_step (s : State) : ∃ t, step s = .next t := by
  rw [step_eq_exec]
  obtain ⟨t, ht, -⟩ := exec_executes _ _
  exact ⟨t, ht⟩

/-- Whatever PC is, a step executes some instruction on the state with PC past it. -/
theorem step_executes {s t : State} (h : step s = .next t) : ∃ i, Executes (s.setPc s.postFetchPc) i t := by
  rw [step_eq_exec] at h
  exact ⟨_, exec_eq_next_iff.mp h⟩

/-- For a PC in range the two fetched bytes are those of the word at PC. -/
theorem step_eq_exec_decodeWord {s : State} (hs : s.PcInRange) :
    step s = exec (decodeWord s.wordAtPc) (s.setPc s.postFetchPc) := by
  rw [step_eq_exec, ← State.wordOf_fetchTwo hs, State.fetchTwo_eq, decodeWord_wordOf]

/-- Every step executes, after the fetches, the well-formed instruction that the word at PC encodes. -/
theorem step_executes_wordAtPc {s t : State} (hs : s.PcInRange) (h : step s = .next t) :
    ∃ i, i.wf = true ∧ s.wordAtPc = encodeWord i ∧ Executes (s.setPc s.postFetchPc) i t := by
  rw [step_eq_exec_decodeWord hs] at h
  exact ⟨_, decodeWord_wf _, (encodeWord_decodeWord _).symm, exec_eq_next_iff.mp h⟩

/-! A draw as a whole: which sprite bits land where, and what they leave in the display and in VF. -/

/-- The bits B are XORed into the display between s and t: every other pixel is as before, and VF becomes 1 when a set
bit meets a set pixel and stays as it was otherwise (spec/42_display.md R89). -/
structure Xors (B : Row → Col → Pixel → Prop) (s t : State) : Prop where
  landed : ∀ r c p, B r c p → t.pixel r c = (s.pixel r c ^^ p)
  missed : ∀ r c, (∀ p, ¬ B r c p) → t.pixel r c = s.pixel r c
  flag_of_hit : (∃ r c, s.pixel r c = true ∧ B r c true) → t.readReg flagReg = 1
  flag_of_no_hit : (¬ ∃ r c, s.pixel r c = true ∧ B r c true) → t.readReg flagReg = s.readReg flagReg

/-- No bit at all changes nothing. -/
theorem Xors.refl_of_no_bit {B : Row → Col → Pixel → Prop} (hB : ∀ r c p, ¬ B r c p) (s : State) : Xors B s s where
  landed r c p h := absurd h (hB r c p)
  missed _ _ _ := rfl
  flag_of_hit := fun ⟨r, c, _, h⟩ => absurd h (hB r c true)
  flag_of_no_hit _ := rfl

/-- Bits that land on no common pixel can be drawn one set after the other. -/
theorem Xors.trans {B C : Row → Col → Pixel → Prop} {s t u : State} (hB : Xors B s t) (hC : Xors C t u)
    (hdisj : ∀ r c p q, B r c p → ¬ C r c q) : Xors (fun r c p => B r c p ∨ C r c p) s u := by
  have hkeptB : ∀ r c p, B r c p → u.pixel r c = t.pixel r c := fun r c p h => hC.missed r c fun q => hdisj r c p q h
  have hkeptC : ∀ r c p, C r c p → t.pixel r c = s.pixel r c := fun r c p h =>
    hB.missed r c fun q hq => hdisj r c q p hq h
  -- a bit of C meets the pixel as it was at the start
  have hhitC : (∃ r c, t.pixel r c = true ∧ C r c true) ↔ ∃ r c, s.pixel r c = true ∧ C r c true :=
    exists₂_congr fun r c => and_congr_left fun h => by rw [hkeptC r c true h]
  refine ⟨fun r c p h => ?_, fun r c h => ?_, fun h => ?_, fun h => ?_⟩
  · rcases h with h | h
    · rw [hkeptB r c p h, hB.landed r c p h]
    · rw [hC.landed r c p h, hkeptC r c p h]
  · rw [hC.missed r c fun p hp => h p (.inr hp), hB.missed r c fun p hp => h p (.inl hp)]
  · by_cases hc : ∃ r c, t.pixel r c = true ∧ C r c true
    · exact hC.flag_of_hit hc
    · rw [hC.flag_of_no_hit hc]
      obtain ⟨r, c, hset, hb | hb⟩ := h
      · exact hB.flag_of_hit ⟨r, c, hset, hb⟩
      · exact absurd (hhitC.mpr ⟨r, c, hset, hb⟩) hc
  · rw [hC.flag_of_no_hit fun hc => h ?_, hB.flag_of_no_hit fun ⟨r, c, hset, hb⟩ => h ⟨r, c, hset, .inl hb⟩]
    obtain ⟨r, c, hset, hb⟩ := hhitC.mp hc
    exact ⟨r, c, hset, .inr hb⟩

/-- Bit 7 - j of sprite byte k is p and lands on (r, c): one summand of SpriteBitAt. -/
def SpriteBit (s : State) (ox oy k j : Nat) (r : Row) (c : Col) (p : Pixel) : Prop :=
  r.val = (k + oy) % 32 ∧ c.val = (j + ox) % 64 ∧
    p = (s.readMem (BitVec.ofNat 12 ((s.i.toNat + k) % 4096))).getLsbD (7 - j)

theorem spriteBitAt_iff (s : State) (ox oy n : Nat) (r : Row) (c : Col) (p : Pixel) :
    SpriteBitAt s ox oy n r c p ↔ ∃ k, k < n ∧ ∃ j, j < 8 ∧ SpriteBit s ox oy k j r c p := Iff.rfl

theorem spriteBit_iff (s : State) (ox oy k j : Nat) (r : Row) (c : Col) (p : Pixel) :
    SpriteBit s ox oy k j r c p ↔
      r = landingRow k oy ∧ c = landingCol j ox ∧ p = spritePixel (s.readMem (spriteAddr s.i k)) j := by
  simp only [SpriteBit, landingRow, landingCol, spritePixel, spriteAddr, Fin.ext_iff]

@[simp] theorem spriteBit_drawSprite (s : State) (ox' oy' n ox oy k j : Nat) :
    SpriteBit (s.drawSprite ox' oy' n) ox oy k j = SpriteBit s ox oy k j := by
  funext r c p
  simp only [SpriteBit, State.drawSprite_readMem, State.drawSprite_i]

theorem State.drawPixel_xors (s : State) (r : Row) (c : Col) (p : Pixel) :
    Xors (fun r' c' p' => r' = r ∧ c' = c ∧ p' = p) s (s.drawPixel r c p) where
  landed := by
    rintro _ _ _ ⟨rfl, rfl, rfl⟩
    rw [State.drawPixel_pixel, if_pos ⟨rfl, rfl⟩]
  missed r' c' h := by
    rw [State.drawPixel_pixel, if_neg fun ⟨hr, hc⟩ => h p ⟨hr, hc, rfl⟩]
  flag_of_hit := by
    rintro ⟨_, _, hset, rfl, rfl, rfl⟩
    rw [State.drawPixel_readReg, if_pos ⟨by rw [hset, collides]; rfl, rfl⟩]
  flag_of_no_hit h := by
    rw [State.drawPixel_readReg, if_neg]
    rintro ⟨hhit, -⟩
    obtain ⟨hset, hp⟩ := Bool.and_eq_true_iff.mp hhit
    exact h ⟨r, c, hset, rfl, rfl, hp.symm⟩

/-- One sprite row XORs its eight bits into the display: they land in eight columns (spec/42_display.md R91). -/
theorem State.drawRow_xors (s : State) (ox oy k : Nat) :
    Xors (fun r c p => ∃ j, j < 8 ∧ SpriteBit s ox oy k j r c p) s (s.drawRow ox oy k) := by
  rw [State.drawRow_eq]
  refine forRange_induct (fun m t => m ≤ 8 → Xors (fun r c p => ∃ j, j < m ∧ SpriteBit s ox oy k j r c p) s t)
    (fun _ => .refl_of_no_bit (by simp) s) (fun m t ih hm => ?_) 8 le_rfl
  simp only [Nat.exists_lt_succ_right, spriteBit_iff s ox oy k m]
  refine (ih (by omega)).trans (t.drawPixel_xors _ _ _) ?_
  rintro r c p q ⟨j, hj, -, hcol, -⟩ ⟨-, rfl, -⟩
  change (m + ox) % 64 = (j + ox) % 64 at hcol
  omega

/-- A sprite of at most 32 rows XORs its bits into the display: no two land on one pixel (spec/42_display.md R91). -/
theorem State.drawSprite_xors (s : State) (ox oy n : Nat) (hn : n ≤ 32) :
    Xors (SpriteBitAt s ox oy n) s (s.drawSprite ox oy n) := by
  induction n with
  | zero => exact .refl_of_no_bit (by simp [SpriteBitAt]) s
  | succ n ih =>
    have hrow := (s.drawSprite ox oy n).drawRow_xors ox oy n
    simp only [spriteBit_drawSprite] at hrow
    rw [State.drawSprite_succ]
    have hbits : SpriteBitAt s ox oy (n + 1) = fun r c p =>
        SpriteBitAt s ox oy n r c p ∨ ∃ j, j < 8 ∧ SpriteBit s ox oy n j r c p := by
      funext r c p
      simp only [spriteBitAt_iff, Nat.exists_lt_succ_right]
    rw [hbits]
    refine (ih (by omega)).trans hrow ?_
    rintro r c p q ⟨k, hk, j, -, hr, -⟩ ⟨j', -, hr', -⟩
    omega

/-- The closed form of DRW (spec/42_display.md R92). -/
theorem Executes.drawn {s t : State} {x y : RegIdx} {n : Height} (h : Executes s (.drw x y n) t) :
    Drawn s t ((s.readReg x).toNat % 64) ((s.readReg y).toNat % 32) n.val := by
  cases h
  obtain ⟨hland, hmiss, hhit, hno⟩ :=
    s.clearFlag.drawSprite_xors (originCol (s.readReg x)) (originRow (s.readReg y)) n.val (by omega)
  exact ⟨hland, hmiss, hhit, fun h => (hno h).trans s.clearFlag_readReg_flag⟩

/-- A draw clears a pixel exactly when a set bit lands on a set pixel. -/
theorem Drawn.cleared_iff {s t : State} {ox oy n : Nat} (h : Drawn s t ox oy n) :
    (∃ r c, s.pixel r c = true ∧ t.pixel r c = false) ↔
      ∃ r c, s.pixel r c = true ∧ SpriteBitAt s ox oy n r c true := by
  obtain ⟨hland, hmiss, -, -⟩ := h
  refine exists₂_congr fun r c => and_congr_right fun hset => ⟨fun hclear => ?_, fun hbit => ?_⟩
  · by_contra hbit
    have hno : ∀ p, ¬ SpriteBitAt s ox oy n r c p := by
      rintro (_ | _) hp
      · simp [hland r c false hp, hset] at hclear
      · exact hbit hp
    simp [hmiss r c hno, hset] at hclear
  · rw [hland r c true hbit, hset]
    rfl

theorem Drawn.flag_eq_zero_or_one {s t : State} {ox oy n : Nat} (h : Drawn s t ox oy n) :
    t.readReg flagReg = 0 ∨ t.readReg flagReg = 1 := by
  obtain ⟨-, -, hhit, hno⟩ := h
  exact (em _).elim (fun hc => .inr (hhit hc)) fun hc => .inl (hno hc)

/-! Which parts of the state each instruction writes. -/

theorem zext16_toNat (nnn : Addr) : (zext16 nnn).toNat = nnn.toNat := by
  rw [zext16, BitVec.toNat_setWidth]
  omega

theorem zext16_lt (nnn : Addr) : (zext16 nnn).toNat < 4096 := zext16_toNat nnn ▸ nnn.isLt

theorem State.postFetchPc_lt (s : State) : s.postFetchPc.toNat < 4096 := by
  rw [State.postFetchPc_toNat]
  omega

section

variable {s t : State} {i : Instr}

theorem Executes.mem_eq (h : Executes s i t) : t.mem = s.mem := by
  cases h <;> simp

theorem Executes.sameMemory (h : Executes s i t) : SameMemory s t := fun a => by
  rw [State.readMem, h.mem_eq, State.readMem]

theorem Executes.sameInert (h : Executes s i t) : SameInert s t := by
  cases h <;> simp [SameInert]

/-- Only JP writes PC after the fetches (spec/10_state.md R22). -/
theorem Executes.pc_eq_or_jp (h : Executes s i t) : t.pc = s.pc ∨ ∃ nnn, i = .jp nnn := by
  cases h <;> simp

/-- Only LD I writes I (spec/10_state.md R24). -/
theorem Executes.i_eq_or_ldI (h : Executes s i t) : t.i = s.i ∨ ∃ nnn, i = .ldI nnn := by
  cases h <;> simp

theorem Executes.pcInRange (h : Executes s i t) (hs : s.PcInRange) : t.PcInRange := by
  cases h with
  | jp nnn => exact zext16_lt nnn
  | _ => simpa [State.PcInRange] using hs

theorem Executes.indexInRange (h : Executes s i t) (hs : s.IndexInRange) : t.IndexInRange := by
  cases h with
  | ldI nnn => exact zext16_lt nnn
  | _ => simpa [State.IndexInRange] using hs

/-- A register is written by LD Vx and ADD Vx with that x, and VF by DRW (spec/10_state.md R19). -/
theorem Executes.readReg_eq_or_writes (h : Executes s i t) (r : RegIdx) :
    t.readReg r = s.readReg r ∨ (∃ nn, i = .ldVImm r nn) ∨ (∃ nn, i = .addVImm r nn) ∨
      ((∃ x y n, i = .drw x y n) ∧ r = flagReg) := by
  cases h with
  | ldVImm x nn =>
    by_cases hr : r = x
    · exact .inr (.inl ⟨nn, by rw [hr]⟩)
    · exact .inl (s.writeReg_readReg_of_ne hr _)
  | addVImm x nn =>
    by_cases hr : r = x
    · exact .inr (.inr (.inl ⟨nn, by rw [hr]⟩))
    · exact .inl (s.writeReg_readReg_of_ne hr _)
  | drw x y n =>
    by_cases hr : r = flagReg
    · exact .inr (.inr (.inr ⟨⟨x, y, n, rfl⟩, hr⟩))
    · exact .inl (by simp [State.drawSprite_readReg_of_ne, hr])
  | _ => exact .inl (by simp)

/-- The display is written by CLS and DRW only (spec/10_state.md R30). -/
theorem Executes.disp_eq_or_writes (h : Executes s i t) : t.disp = s.disp ∨ i = .cls ∨ ∃ x y n, i = .drw x y n := by
  cases h <;> simp

end

/-! SP, DT and ST reach nothing: with other values in them every instruction does the same (spec/10_state.md R25 to
R27). -/

/-- The state with other values in SP, DT and ST. -/
def State.withInert (s : State) (a b c : Byte) : State := { s with sp := a, dt := b, st := c }

@[simp] theorem State.withInert_i (s : State) (a b c : Byte) : (s.withInert a b c).i = s.i := rfl

@[simp] theorem State.withInert_readMem (s : State) (a b c : Byte) (k : Addr) :
    (s.withInert a b c).readMem k = s.readMem k := rfl

/-- A function that every pass of a loop commutes with can be applied before the loop or after it. -/
theorem forRange_comm {α : Type} {body : Nat → α → α} (f : α → α) (h : ∀ k a, body k (f a) = f (body k a)) (n : Nat)
    (a : α) : forRange n body (f a) = f (forRange n body a) := by
  induction n with
  | zero => rfl
  | succ n ih => rw [forRange_succ, forRange_succ, ih, h]

theorem State.flagCollision_withInert (s : State) (a b c : Byte) (hit : Bool) :
    (s.withInert a b c).flagCollision hit = (s.flagCollision hit).withInert a b c := by
  cases hit <;> rfl

theorem State.drawPixel_withInert (s : State) (a b c : Byte) (r : Row) (k : Col) (p : Pixel) :
    (s.withInert a b c).drawPixel r k p = (s.drawPixel r k p).withInert a b c :=
  State.flagCollision_withInert (s.setPixel r k (s.pixel r k ^^ p)) a b c _

theorem State.drawRow_withInert (s : State) (a b c : Byte) (ox oy k : Nat) :
    (s.withInert a b c).drawRow ox oy k = (s.drawRow ox oy k).withInert a b c := by
  rw [State.drawRow_eq, State.drawRow_eq, State.withInert_i, State.withInert_readMem]
  refine forRange_comm (State.withInert · a b c) (fun j t => ?_) 8 s
  exact t.drawPixel_withInert a b c _ _ _

theorem State.drawSprite_withInert (s : State) (a b c : Byte) (ox oy n : Nat) :
    (s.withInert a b c).drawSprite ox oy n = (s.drawSprite ox oy n).withInert a b c := by
  unfold State.drawSprite
  refine forRange_comm (State.withInert · a b c) (fun k t => ?_) n s
  exact t.drawRow_withInert a b c ox oy k

theorem Executes.withInert {s t : State} {i : Instr} (h : Executes s i t) (a b c : Byte) :
    Executes (s.withInert a b c) i (t.withInert a b c) := by
  cases h with
  | nop => exact .nop
  | cls => exact .cls
  | jp nnn => exact .jp nnn
  | ldVImm x nn => exact .ldVImm x nn
  | addVImm x nn => exact .addVImm x nn
  | ldI nnn => exact .ldI nnn
  | drw x y n =>
    rw [← State.drawSprite_withInert]
    exact .drw x y n
  | defaultNop w => exact .defaultNop w

theorem step_withInert {s t : State} (h : step s = .next t) (a b c : Byte) :
    step (s.withInert a b c) = .next (t.withInert a b c) := by
  rw [step_eq_exec, exec_eq_next_iff] at h ⊢
  exact h.withInert a b c

/-! The display reaches nothing but itself and VF (spec/10_state.md R30, R20). -/

/-- The state with another display. -/
def State.withDisplay (s : State) (d : Display) : State := { s with disp := d }

/-- What an instruction leaves outside the display and VF does not depend on the display, and only DRW's VF does. -/
theorem Executes.withDisplay {s t t' : State} {i : Instr} {d : Display} (h : Executes s i t)
    (h' : Executes (s.withDisplay d) i t') :
    t'.i = t.i ∧ t'.pc = t.pc ∧ SameInert t t' ∧ SameMemory t t' ∧ SameRegsBut [15] t t' ∧
      ((¬ ∃ x y n, i = .drw x y n) → t'.readReg 15 = t.readReg 15) := by
  have hinert : SameInert t t' := by
    obtain ⟨hsp, hdt, hst⟩ := h.sameInert
    obtain ⟨hsp', hdt', hst'⟩ := h'.sameInert
    exact ⟨hsp'.trans hsp.symm, hdt'.trans hdt.symm, hst'.trans hst.symm⟩
  have hmem : SameMemory t t' := fun a => (h'.sameMemory a).trans (h.sameMemory a).symm
  cases h with
  | drw x y n =>
    cases h'
    refine ⟨by simp [State.withDisplay], by simp [State.withDisplay], hinert, hmem, fun r hr => ?_,
      fun hno => absurd ⟨x, y, n, rfl⟩ hno⟩
    have hr' : r ≠ flagReg := fun h => hr (List.mem_singleton.mpr h)
    simp only [State.drawSprite_readReg_of_ne _ _ _ _ hr', State.clearFlag_readReg_of_ne _ hr']
    rfl
  | _ =>
    cases h'
    exact ⟨rfl, rfl, hinert, hmem, fun _ _ => rfl, fun _ => rfl⟩

/-! Runs and launches. -/

/-- What a state has and every step keeps, every state of a run from it has. -/
theorem run_keeps {P : State → Prop} (hstep : ∀ s t, P s → step s = .next t → P t) {k : Nat} {s t : State} (hs : P s)
    (h : Sys2Proof.core.run k s = .next t) : P t := by
  induction k generalizing s with
  | zero =>
    have heq : s = t := Host.Outcome.next.inj ((run_zero s).symm.trans h)
    exact heq ▸ hs
  | succ k ih =>
    obtain ⟨u, hu⟩ := exists_step s
    rw [run_succ_of_step hu] at h
    exact ih (hstep s u hs hu) h

/-- A launch gives the reset state with the image stored, for an image that fits (spec/70_reset_and_hazards.md R119). -/
theorem launch_eq_next_iff {image : List Byte} {t : State} :
    launch image = .next t ↔ image.length ≤ 3584 ∧ State.reset.storeFrom 0x200 image = t := by
  rw [launch, load]
  split_ifs with h
  · exact iff_of_false (fun h => nomatch h) fun ⟨hfit, _⟩ => absurd hfit (not_le.mpr h)
  · rw [Host.Outcome.next.injEq]
    exact (and_iff_right (not_lt.mp h)).symm

@[simp] theorem State.storeFrom_readReg (s : State) (base : Nat) (image : List Byte) (x : RegIdx) :
    (s.storeFrom base image).readReg x = s.readReg x := by
  rw [State.readReg, State.storeFrom_v, State.readReg]

@[simp] theorem State.storeFrom_pixel (s : State) (base : Nat) (image : List Byte) (r : Row) (c : Col) :
    (s.storeFrom base image).pixel r c = s.pixel r c := by
  rw [State.pixel, State.storeFrom_disp, State.pixel]

theorem State.inertAtReset_of_sameInert {s t : State} (hs : s.InertAtReset) (h : SameInert s t) : t.InertAtReset := by
  obtain ⟨hsp, hdt, hst⟩ := h
  rwa [State.InertAtReset, hsp, hdt, hst]

theorem step_sameInert {s t : State} (h : step s = .next t) : SameInert s t := by
  obtain ⟨i, hex⟩ := step_executes h
  exact hex.sameInert

theorem step_pcInRange {s t : State} (h : step s = .next t) : t.PcInRange := by
  obtain ⟨i, hex⟩ := step_executes h
  exact hex.pcInRange s.postFetchPc_lt

/-! The statements. -/

/-- Settles O17: each part of the invariant is kept by every instruction, and the fetches leave PC below 4096. -/
theorem everyStepKeepsTheInvariant : Obligations.EveryStepKeepsTheInvariant := by
  rintro s t ⟨-, hi, hinert, hmem⟩ h
  obtain ⟨i, hex⟩ := step_executes h
  exact ⟨step_pcInRange h, hex.indexInRange hi, State.inertAtReset_of_sameInert hinert (step_sameInert h),
    hex.mem_eq ▸ hmem⟩

/-- Settles O18, by the range of the post-fetch PC and of a jump's target. -/
theorem pcStaysInRange : Obligations.PcStaysInRange :=
  ⟨State.reset_pc, fun _ _ => step_pcInRange⟩

/-- Settles O25: no instruction touches SP, DT or ST, executing commutes with other values in them, and a run keeps the 0
a launch gives them. -/
theorem inertRegistersAreNeverReadOrWritten : Obligations.InertRegistersAreNeverReadOrWritten := by
  refine ⟨fun s t => step_sameInert, fun s t a b c h => step_withInert h a b c, fun image u t k hlaunch hrun => ?_,
    fun s => rfl⟩
  have hu : u.InertAtReset := by
    obtain ⟨-, rfl⟩ := launch_eq_next_iff.mp hlaunch
    simp [State.InertAtReset]
  exact run_keeps (P := State.InertAtReset)
    (fun s t hs h => State.inertAtReset_of_sameInert hs (step_sameInert h)) hu hrun

/-- Settles O26: a jump word is a JP of its low twelve bits, and no other instruction writes PC. -/
theorem onlyJpLeavesThePostFetchPc : Obligations.OnlyJpLeavesThePostFetchPc := by
  intro s t hpc h
  obtain ⟨i, hwf, hword, hex⟩ := step_executes_wordAtPc hpc h
  rw [hword]
  refine ⟨fun hm => ?_, fun hm => ?_⟩
  · obtain ⟨nnn, rfl⟩ := (matchesPattern_iff_jp hwf).mp hm
    cases hex
    rw [State.setPc_pc, zext16_toNat, encodeWord_jp_toNat]
    omega
  · have hno : ¬ ∃ nnn, i = .jp nnn := by
      rw [← matchesPattern_iff_jp hwf, hm]
      exact Bool.false_ne_true
    rw [hex.pc_eq_or_jp.resolve_right hno, State.setPc_pc, State.postFetchPc_toNat]

/-- Settles O27, by the registers each instruction writes. -/
theorem onlyThreeInstructionsWriteRegisters : Obligations.OnlyThreeInstructionsWriteRegisters := by
  intro s t r hpc h hne
  obtain ⟨i, hwf, hword, hex⟩ := step_executes_wordAtPc hpc h
  rw [hword]
  have hrow := matchesPattern_row hwf
  rcases (hex.readReg_eq_or_writes r).resolve_left hne with ⟨nn, rfl⟩ | ⟨nn, rfl⟩ | ⟨⟨x, y, n, rfl⟩, hr⟩
  · exact .inl ⟨.inl hrow, wordX_encodeWord_ldVImm r nn⟩
  · exact .inl ⟨.inr hrow, wordX_encodeWord_addVImm r nn⟩
  · exact .inr ⟨hrow, hr⟩

/-- Settles O28, by the instructions that write I and the display. -/
theorem onlyTheNamedInstructionsWriteIndexAndDisplay : Obligations.OnlyTheNamedInstructionsWriteIndexAndDisplay := by
  intro s t hpc h
  obtain ⟨i, hwf, hword, hex⟩ := step_executes_wordAtPc hpc h
  rw [hword]
  have hrow := matchesPattern_row hwf
  refine ⟨fun hne => ?_, fun r c hne => ?_⟩
  · obtain ⟨nnn, rfl⟩ := hex.i_eq_or_ldI.resolve_left hne
    exact hrow
  · have hdisp : t.disp ≠ s.disp := fun heq => hne (by rw [State.pixel, heq, State.pixel])
    obtain rfl | ⟨x, y, n, rfl⟩ := hex.disp_eq_or_writes.resolve_left hdisp
    · exact .inl rfl
    · exact .inr hrow

/-- Settles O29: by the closed form of a draw, a pixel is cleared exactly when a set bit lands on a set pixel. -/
theorem vfRecordsWhetherAPixelWasCleared : Obligations.VfRecordsWhetherAPixelWasCleared := by
  intro s t hpc h
  obtain ⟨i, hwf, hword, hex⟩ := step_executes_wordAtPc hpc h
  rw [hword]
  refine ⟨fun hm => ?_, fun hdrw hld hadd => ?_⟩
  · obtain ⟨x, y, n, rfl⟩ := (matchesPattern_iff_drw hwf).mp hm
    have hdrawn := hex.drawn
    have hcleared := hdrawn.cleared_iff
    obtain ⟨-, -, hhit, hno⟩ := hdrawn
    exact ⟨fun hc => hhit (hcleared.mp hc), fun hc => hno (mt hcleared.mpr hc)⟩
  · rcases hex.readReg_eq_or_writes 15 with heq | ⟨nn, rfl⟩ | ⟨nn, rfl⟩ | ⟨hd, -⟩
    · exact heq
    · exact absurd (matchesPattern_highByte 0x6F nn) (ne_true_of_eq_false hld)
    · exact absurd (matchesPattern_highByte 0x7F nn) (ne_true_of_eq_false hadd)
    · exact absurd ((matchesPattern_iff_drw hwf).mpr hd) (ne_true_of_eq_false hdrw)

/-- Settles O31: both steps execute the same instruction, for the fetched word does not depend on the display. -/
theorem displayReachesOnlyItselfAndVf : Obligations.DisplayReachesOnlyItselfAndVf := by
  intro s t t' d hpc h h'
  rw [step_eq_exec_decodeWord hpc, exec_eq_next_iff] at h
  have hd : exec (decodeWord s.wordAtPc) ((s.setPc s.postFetchPc).withDisplay d) = .next t' :=
    (step_eq_exec_decodeWord (s := s.withDisplay d) hpc).symm.trans h'
  obtain ⟨hi, hpc', hinert, hmem, hregs, hflag⟩ := h.withDisplay (exec_eq_next_iff.mp hd)
  refine ⟨hi, hpc', hinert, hmem, hregs, fun hm => hflag ?_⟩
  rw [← matchesPattern_iff_drw (decodeWord_wf _), encodeWord_decodeWord, hm]
  exact Bool.false_ne_true

/-- Settles O37, by the closed form of a draw and the parts of the state that no draw writes. -/
theorem drwWritesOnlyVfAndTheDisplay : Obligations.DrwWritesOnlyVfAndTheDisplay := by
  intro x y n s
  obtain ⟨t, ht, hex⟩ := exec_executes (.drw x y n) s
  have hdrawn := hex.drawn
  have hflag := hdrawn.flag_eq_zero_or_one
  obtain ⟨-, hmissed, -, -⟩ := hdrawn
  refine ⟨t, ht, fun r hr => ?_, hflag, hex.i_eq_or_ldI.resolve_right (by simp),
    hex.pc_eq_or_jp.resolve_right (by simp), hex.sameInert, hex.sameMemory, hmissed⟩
  have hr' : r ≠ flagReg := fun h => hr (List.mem_singleton.mpr h)
  exact (hex.readReg_eq_or_writes r).resolve_right (by simp [hr'])

/-- Settles O14, by the reset values and by what storing an image leaves unchanged. -/
theorem resetValuesAreTheSpecs : Obligations.ResetValuesAreTheSpecs := by
  refine ⟨State.reset_readReg, rfl, rfl, rfl, rfl, rfl, State.reset_readMem, State.reset_pixel, fun image t h => ?_⟩
  obtain ⟨hfit, rfl⟩ := launch_eq_next_iff.mp h
  refine ⟨fun x _ => State.storeFrom_readReg .., by simp, by simp, by simp [SameInert],
    fun r c => State.storeFrom_pixel .., fun a ha => ?_⟩
  rw [State.storeFrom_readMem_of_not_mem State.reset_mem_wf (by omega) ha, State.reset_readMem]

/-- Settles O15, by the reset values. -/
theorem resetMeetsTheInvariant : Obligations.ResetMeetsTheInvariant := by
  unfold Obligations.ResetMeetsTheInvariant
  exact ⟨by decide, by decide, ⟨rfl, rfl, rfl⟩, State.reset_mem_wf⟩

end Sys2Proof.Machine
end

section
/-! SUPPORT. The proofs of the statements about memory: which bytes a step reads, and that it writes none
(spec/20_memory.md). -/

namespace Sys2Proof

open Machine

/-- The decoder reads a table word of at most 16 bits as the word of its low nbits bits. -/
theorem decodeTableWord_eq_decodeWord {nbits : Nat} (h : nbits ≤ 16) (w : Nat) :
    decodeTableWord nbits w = some (decodeWord (BitVec.ofNat 16 (w % 2 ^ nbits))) := by
  rw [decodeTableWord, if_pos h]
  rfl

/-- Sprite height n is the low field of a DRW word (spec/30_encoding.md R56, R58). -/
theorem encodeWord_drw_toNat_mod (x y : RegIdx) (n : Height) : (encodeWord (.drw x y n)).toNat % 16 = n.val := by
  rw [encodeWord_drw_toNat]
  omega

end Sys2Proof

namespace Sys2Proof.Machine

/-! A placed word. -/

/-- A step after placing a word executes that word, with PC past it. -/
theorem step_withFetchWord {s : State} (hs : s.mem.wf = true) (nbits w : Nat) :
    step (s.withFetchWord nbits w) =
      exec (decodeWord (BitVec.ofNat 16 (w % 2 ^ nbits))) ((s.withFetchWord nbits w).setPc s.postFetchPc) := by
  obtain ⟨hb1, hb2, hpc⟩ := State.placeInstr_fetch hs (highByte (BitVec.ofNat 16 (w % 2 ^ nbits)))
    (lowByte (BitVec.ofNat 16 (w % 2 ^ nbits)))
  rw [step_eq_exec, State.postFetchPc, State.withFetchWord, hpc, hb1, hb2, decodeWord, State.postFetchPc]

/-! Memory along a run. -/

/-- An address of the stored range reads the byte stored there (spec/70_reset_and_hazards.md R116). -/
theorem State.storeFrom_readMem_getElem {s : State} (hs : s.mem.wf = true) {base : Nat} {image : List Byte}
    (hfit : base + image.length ≤ 4096) {j : Nat} (hj : j < image.length) :
    (s.storeFrom base image).readMem (BitVec.ofNat 12 (base + j)) = image[j] := by
  induction image generalizing s base j with
  | nil => exact absurd hj (Nat.not_lt_zero j)
  | cons b rest ih =>
    rw [List.length_cons] at hfit hj
    have hs' := State.writeMem_wf hs (BitVec.ofNat 12 (base % 4096)) b
    rw [State.storeFrom_cons]
    cases j with
    | zero =>
      have hbase : base % 4096 = base := Nat.mod_eq_of_lt (by omega)
      rw [State.storeFrom_readMem_of_not_mem hs' (by omega) (.inl ?_), State.writeMem_readMem hs, hbase, Nat.add_zero,
        if_pos rfl, List.getElem_cons_zero]
      rw [BitVec.toNat_ofNat]
      omega
    | succ j =>
      rw [List.getElem_cons_succ, Nat.add_comm j 1, ← Nat.add_assoc]
      exact ih hs' (by omega) (Nat.lt_of_succ_lt_succ hj)

/-- No step writes memory (spec/20_memory.md R44). -/
theorem step_mem_eq {s t : State} (h : step s = .next t) : t.mem = s.mem := by
  obtain ⟨i, hex⟩ := step_executes h
  exact hex.mem_eq

theorem run_mem_eq {k : Nat} {s t : State} (h : Sys2Proof.core.run k s = .next t) : t.mem = s.mem :=
  run_keeps (P := fun u => u.mem = s.mem) (fun _ _ hu hstep => (step_mem_eq hstep).trans hu) rfl h

theorem State.sameMemory_of_mem_eq {s t : State} (h : t.mem = s.mem) : SameMemory s t := fun a => by
  rw [State.readMem, h, State.readMem]

/-! Memory is read at the two fetch addresses and at the sprite's (spec/20_memory.md R41): with another memory that
agrees there, every instruction does the same. -/

/-- The state with another memory. -/
def State.withMem (s : State) (m : Memory) : State := { s with mem := m }

/-- The memory m holds the n sprite bytes that a draw from s reads. -/
def State.SpriteAgrees (s : State) (m : Memory) (n : Nat) : Prop :=
  ∀ k, k < n → (s.withMem m).readMem (spriteAddr s.i k) = s.readMem (spriteAddr s.i k)

theorem State.flagCollision_withMem (s : State) (m : Memory) (hit : Bool) :
    (s.withMem m).flagCollision hit = (s.flagCollision hit).withMem m := by
  cases hit <;> rfl

theorem State.drawPixel_withMem (s : State) (m : Memory) (r : Row) (c : Col) (p : Pixel) :
    (s.withMem m).drawPixel r c p = (s.drawPixel r c p).withMem m :=
  State.flagCollision_withMem (s.setPixel r c (s.pixel r c ^^ p)) m _

/-- A row reads one byte of memory, its own. -/
theorem State.drawRow_withMem {s : State} {m : Memory} {k : Nat}
    (h : (s.withMem m).readMem (spriteAddr s.i k) = s.readMem (spriteAddr s.i k)) (ox oy : Nat) :
    (s.withMem m).drawRow ox oy k = (s.drawRow ox oy k).withMem m := by
  have h' : (s.withMem m).readMem (spriteAddr (s.withMem m).i k) = s.readMem (spriteAddr s.i k) := h
  rw [State.drawRow_eq, State.drawRow_eq, h']
  exact forRange_comm (State.withMem · m) (fun j t => t.drawPixel_withMem m _ _ _) 8 s

/-- A sprite of n rows reads n bytes of memory. -/
theorem State.drawSprite_withMem {s : State} {m : Memory} {n : Nat} (h : s.SpriteAgrees m n) (ox oy : Nat) :
    (s.withMem m).drawSprite ox oy n = (s.drawSprite ox oy n).withMem m := by
  induction n with
  | zero => rw [State.drawSprite_zero, State.drawSprite_zero]
  | succ n ih =>
    have hrow : ((s.drawSprite ox oy n).withMem m).readMem (spriteAddr (s.drawSprite ox oy n).i n) =
        (s.drawSprite ox oy n).readMem (spriteAddr (s.drawSprite ox oy n).i n) := by
      rw [State.drawSprite_i, State.drawSprite_readMem]
      exact h n n.lt_succ_self
    rw [State.drawSprite_succ, State.drawSprite_succ, ih fun k hk => h k (Nat.lt_succ_of_lt hk),
      State.drawRow_withMem hrow]

/-- Only DRW reads memory after the fetches, and only its sprite bytes. -/
theorem Executes.withMem {s t : State} {i : Instr} {m : Memory} (h : Executes s i t)
    (hsprite : ∀ x y n, i = .drw x y n → s.SpriteAgrees m n.val) : Executes (s.withMem m) i (t.withMem m) := by
  cases h with
  | nop => exact .nop
  | cls => exact .cls
  | jp nnn => exact .jp nnn
  | ldVImm x nn => exact .ldVImm x nn
  | addVImm x nn => exact .addVImm x nn
  | ldI nnn => exact .ldI nnn
  | drw x y n =>
    have hclear : s.clearFlag.SpriteAgrees m n.val := hsprite x y n rfl
    rw [← State.drawSprite_withMem hclear]
    exact .drw x y n
  | defaultNop w => exact .defaultNop w

/-- A step executes the same instruction with another memory that holds the same word at PC. -/
theorem step_withMem {s t : State} {m : Memory} (hpc : s.PcInRange) (hword : (s.withMem m).wordAtPc = s.wordAtPc)
    (hsprite : ∀ x y n, s.wordAtPc = encodeWord (.drw x y n) → s.SpriteAgrees m n.val) (h : step s = .next t) :
    step (s.withMem m) = .next (t.withMem m) := by
  have hpc' : (s.withMem m).PcInRange := hpc
  rw [step_eq_exec_decodeWord hpc, exec_eq_next_iff] at h
  rw [step_eq_exec_decodeWord hpc', hword, exec_eq_next_iff]
  refine h.withMem fun x y n hdrw => hsprite x y n ?_
  rw [← hdrw, encodeWord_decodeWord]

/-! The statements. -/

/-- Settles O21: the launch stores the image, and no step of the run writes memory. -/
theorem fetchAlwaysSeesTheImageAsLoaded : Obligations.FetchAlwaysSeesTheImageAsLoaded := by
  intro image u t k hlaunch hrun
  obtain ⟨hfit, rfl⟩ := launch_eq_next_iff.mp hlaunch
  have hsame := State.sameMemory_of_mem_eq (run_mem_eq hrun)
  refine ⟨fun j hj => ?_, fun a ha => ?_⟩
  · rw [hsame, State.storeFrom_readMem_getElem State.reset_mem_wf (by omega) hj]
  · rw [hsame, State.storeFrom_readMem_of_not_mem State.reset_mem_wf (by omega) ha, State.reset_readMem]

/-- Settles O23: the placed bytes are the two fetched, and decodeTableWord reads the same two. -/
theorem placedTableWordRunsNext : Obligations.PlacedTableWordRunsNext := fun _ w hs _ =>
  ⟨_, decodeTableWord_eq_decodeWord le_rfl w, step_withFetchWord hs 16 w⟩

/-- Settles O24, by induction over the run: no instruction writes memory. -/
theorem noStepWritesMemory : Obligations.NoStepWritesMemory := fun _ _ _ h =>
  ⟨run_mem_eq h, State.sameMemory_of_mem_eq (run_mem_eq h)⟩

/-- Settles O30: the fetches read the word at PC, and executing it commutes with another memory that holds the sprite
bytes. -/
theorem stepReadsOnlyFetchedAndSpriteBytes : Obligations.StepReadsOnlyFetchedAndSpriteBytes := by
  intro s t m hpc hb1 hb2 hsprite
  have hword : (s.withMem m).wordAtPc = s.wordAtPc := congrArg₂ wordOf hb1 hb2
  refine step_withMem hpc hword fun x y n hdrw => ?_
  rw [hdrw, encodeWord_drw_toNat_mod] at hsprite
  exact hsprite (matchesPattern_row (i := .drw x y n) rfl)

end Sys2Proof.Machine
end

section
/-! SUPPORT. The proofs of the statements about the encoding (spec/30_encoding.md): a word selects the row of the table
that it matches, each operand is a field of the word, and so decoding undoes encoding. -/

namespace Sys2Proof

open Machine
open Laws.EncodesItsRow (row)

/-! The operand fields of an instruction's word are the instruction's operands (R56, R58). -/

theorem wordX_val (w : Word) : (wordX w).val = w.toNat / 256 % 16 := rfl

theorem wordY_val (w : Word) : (wordY w).val = w.toNat / 16 % 16 := rfl

theorem wordN_val (w : Word) : (wordN w).val = w.toNat % 16 := rfl

theorem wordNn_toNat (w : Word) : (wordNn w).toNat = w.toNat % 256 := by
  rw [wordNn, BitVec.toNat_ofNat, Nat.mod_mod]

theorem wordNnn_toNat (w : Word) : (wordNnn w).toNat = w.toNat % 4096 := by
  rw [wordNnn, BitVec.toNat_ofNat, Nat.mod_mod]

@[simp] theorem wordNnn_encodeWord_jp (nnn : Addr) : wordNnn (encodeWord (.jp nnn)) = nnn := by
  apply BitVec.eq_of_toNat_eq
  rw [wordNnn_toNat, encodeWord_jp_toNat]
  omega

@[simp] theorem wordNnn_encodeWord_ldI (nnn : Addr) : wordNnn (encodeWord (.ldI nnn)) = nnn := by
  apply BitVec.eq_of_toNat_eq
  rw [wordNnn_toNat, encodeWord_ldI_toNat]
  omega

@[simp] theorem wordNn_encodeWord_ldVImm (x : RegIdx) (nn : Byte) : wordNn (encodeWord (.ldVImm x nn)) = nn := by
  apply BitVec.eq_of_toNat_eq
  rw [wordNn_toNat, encodeWord_ldVImm_toNat]
  omega

@[simp] theorem wordNn_encodeWord_addVImm (x : RegIdx) (nn : Byte) : wordNn (encodeWord (.addVImm x nn)) = nn := by
  apply BitVec.eq_of_toNat_eq
  rw [wordNn_toNat, encodeWord_addVImm_toNat]
  omega

@[simp] theorem wordX_encodeWord_drw (x y : RegIdx) (n : Height) : wordX (encodeWord (.drw x y n)) = x := by
  apply Fin.ext
  rw [wordX_val, encodeWord_drw_toNat]
  omega

@[simp] theorem wordY_encodeWord_drw (x y : RegIdx) (n : Height) : wordY (encodeWord (.drw x y n)) = y := by
  apply Fin.ext
  rw [wordY_val, encodeWord_drw_toNat]
  omega

@[simp] theorem wordN_encodeWord_drw (x y : RegIdx) (n : Height) : wordN (encodeWord (.drw x y n)) = n := by
  apply Fin.ext
  rw [wordN_val, encodeWord_drw_toNat]
  omega

/-! For a well-formed instruction, matching a supported pattern is being an instruction of that row. -/

theorem matchesPattern_iff_nop {i : Instr} (hi : i.wf = true) :
    matchesPattern (encodeWord i) (0xFFFF, 0x0000) = true ↔ i = .nop := by
  rw [matchesPattern_encodeWord hi (by decide)]
  cases i <;> simp [row]

theorem matchesPattern_iff_cls {i : Instr} (hi : i.wf = true) :
    matchesPattern (encodeWord i) (0xFFFF, 0x00E0) = true ↔ i = .cls := by
  rw [matchesPattern_encodeWord hi (by decide)]
  cases i <;> simp [row]

theorem matchesPattern_iff_ldVImm {i : Instr} (hi : i.wf = true) :
    matchesPattern (encodeWord i) (0xF000, 0x6000) = true ↔ ∃ x nn, i = .ldVImm x nn := by
  rw [matchesPattern_encodeWord hi (by decide)]
  cases i <;> simp [row]

theorem matchesPattern_iff_addVImm {i : Instr} (hi : i.wf = true) :
    matchesPattern (encodeWord i) (0xF000, 0x7000) = true ↔ ∃ x nn, i = .addVImm x nn := by
  rw [matchesPattern_encodeWord hi (by decide)]
  cases i <;> simp [row]

theorem matchesPattern_iff_ldI {i : Instr} (hi : i.wf = true) :
    matchesPattern (encodeWord i) (0xF000, 0xA000) = true ↔ ∃ nnn, i = .ldI nnn := by
  rw [matchesPattern_encodeWord hi (by decide)]
  cases i <;> simp [row]

/-- Only the default arm's row is not one of the seven. -/
theorem row_mem_supportedPatterns (i : Instr) : row i ∈ supportedPatterns ∨ ∃ w, i = .defaultNop w := by
  cases i with
  | defaultNop w => exact .inr ⟨w, rfl⟩
  | _ => exact .inl (by simp [row, supportedPatterns])

theorem defaultNop_wf_iff (w : Word) : (Instr.defaultNop w).wf = true ↔ isSupported w = false := by
  rw [Instr.wf, Bool.not_eq_true']

/-! A word is that of the well-formed instruction it decodes to, so it decodes to an instruction of the row it matches
(R59). -/

theorem decodeWord_eq_nop_iff (w : Word) : decodeWord w = .nop ↔ matchesPattern w (0xFFFF, 0x0000) = true := by
  rw [← matchesPattern_iff_nop (decodeWord_wf w), encodeWord_decodeWord]

theorem decodeWord_eq_cls_iff (w : Word) : decodeWord w = .cls ↔ matchesPattern w (0xFFFF, 0x00E0) = true := by
  rw [← matchesPattern_iff_cls (decodeWord_wf w), encodeWord_decodeWord]

theorem exists_decodeWord_eq_jp_iff (w : Word) :
    (∃ nnn, decodeWord w = .jp nnn) ↔ matchesPattern w (0xF000, 0x1000) = true := by
  rw [← matchesPattern_iff_jp (decodeWord_wf w), encodeWord_decodeWord]

theorem exists_decodeWord_eq_ldVImm_iff (w : Word) :
    (∃ x nn, decodeWord w = .ldVImm x nn) ↔ matchesPattern w (0xF000, 0x6000) = true := by
  rw [← matchesPattern_iff_ldVImm (decodeWord_wf w), encodeWord_decodeWord]

theorem exists_decodeWord_eq_addVImm_iff (w : Word) :
    (∃ x nn, decodeWord w = .addVImm x nn) ↔ matchesPattern w (0xF000, 0x7000) = true := by
  rw [← matchesPattern_iff_addVImm (decodeWord_wf w), encodeWord_decodeWord]

theorem exists_decodeWord_eq_ldI_iff (w : Word) :
    (∃ nnn, decodeWord w = .ldI nnn) ↔ matchesPattern w (0xF000, 0xA000) = true := by
  rw [← matchesPattern_iff_ldI (decodeWord_wf w), encodeWord_decodeWord]

theorem exists_decodeWord_eq_drw_iff (w : Word) :
    (∃ x y n, decodeWord w = .drw x y n) ↔ matchesPattern w (0xF000, 0xD000) = true := by
  rw [← matchesPattern_iff_drw (decodeWord_wf w), encodeWord_decodeWord]

/-! What each word decodes to, its operands read off the word. -/

/-- The word of the instruction that w decodes to is w. -/
theorem eq_encodeWord_of_decodeWord_eq {w : Word} {i : Instr} (h : decodeWord w = i) : w = encodeWord i := by
  rw [← h, encodeWord_decodeWord]

theorem decodeWord_eq_jp {w : Word} (h : matchesPattern w (0xF000, 0x1000) = true) :
    decodeWord w = .jp (wordNnn w) := by
  obtain ⟨nnn, hi⟩ := (exists_decodeWord_eq_jp_iff w).mpr h
  rw [hi, eq_encodeWord_of_decodeWord_eq hi, wordNnn_encodeWord_jp]

theorem decodeWord_eq_ldVImm {w : Word} (h : matchesPattern w (0xF000, 0x6000) = true) :
    decodeWord w = .ldVImm (wordX w) (wordNn w) := by
  obtain ⟨x, nn, hi⟩ := (exists_decodeWord_eq_ldVImm_iff w).mpr h
  rw [hi, eq_encodeWord_of_decodeWord_eq hi, wordX_encodeWord_ldVImm, wordNn_encodeWord_ldVImm]

theorem decodeWord_eq_addVImm {w : Word} (h : matchesPattern w (0xF000, 0x7000) = true) :
    decodeWord w = .addVImm (wordX w) (wordNn w) := by
  obtain ⟨x, nn, hi⟩ := (exists_decodeWord_eq_addVImm_iff w).mpr h
  rw [hi, eq_encodeWord_of_decodeWord_eq hi, wordX_encodeWord_addVImm, wordNn_encodeWord_addVImm]

theorem decodeWord_eq_ldI {w : Word} (h : matchesPattern w (0xF000, 0xA000) = true) :
    decodeWord w = .ldI (wordNnn w) := by
  obtain ⟨nnn, hi⟩ := (exists_decodeWord_eq_ldI_iff w).mpr h
  rw [hi, eq_encodeWord_of_decodeWord_eq hi, wordNnn_encodeWord_ldI]

theorem decodeWord_eq_drw {w : Word} (h : matchesPattern w (0xF000, 0xD000) = true) :
    decodeWord w = .drw (wordX w) (wordY w) (wordN w) := by
  obtain ⟨x, y, n, hi⟩ := (exists_decodeWord_eq_drw_iff w).mpr h
  rw [hi, eq_encodeWord_of_decodeWord_eq hi, wordX_encodeWord_drw, wordY_encodeWord_drw, wordN_encodeWord_drw]

/-- A word that decodes to an instruction of one of the seven rows matches that row. -/
theorem isSupported_of_row_mem {w : Word} (h : row (decodeWord w) ∈ supportedPatterns) : isSupported w = true := by
  have hmatch := matchesPattern_row (decodeWord_wf w)
  rw [encodeWord_decodeWord] at hmatch
  exact List.any_eq_true.mpr ⟨_, h, hmatch⟩

/-- The default arm holds exactly the unsupported words, and keeps the word (R60, R66). -/
theorem decodeWord_eq_defaultNop_iff (w v : Word) :
    decodeWord w = .defaultNop v ↔ v = w ∧ isSupported w = false := by
  constructor
  · intro h
    obtain rfl : w = v := eq_encodeWord_of_decodeWord_eq h
    exact ⟨rfl, (defaultNop_wf_iff w).mp (h ▸ decodeWord_wf w)⟩
  · rintro ⟨rfl, hunsup⟩
    rcases row_mem_supportedPatterns (decodeWord v) with hrow | ⟨w, hi⟩
    · exact absurd (isSupported_of_row_mem hrow) (by simp [hunsup])
    · obtain rfl : v = w := eq_encodeWord_of_decodeWord_eq hi
      exact hi

/-! Decoding undoes encoding, on words and on bytes. -/

/-- The word of a well-formed instruction matches its own row, and the operands read off it are the instruction's. -/
theorem decodeWord_encodeWord {i : Instr} (hi : i.wf = true) : decodeWord (encodeWord i) = i := by
  have hrow := matchesPattern_row hi
  cases i with
  | nop => exact (decodeWord_eq_nop_iff _).mpr hrow
  | cls => exact (decodeWord_eq_cls_iff _).mpr hrow
  | jp nnn => rw [decodeWord_eq_jp hrow, wordNnn_encodeWord_jp]
  | ldVImm x nn => rw [decodeWord_eq_ldVImm hrow, wordX_encodeWord_ldVImm, wordNn_encodeWord_ldVImm]
  | addVImm x nn => rw [decodeWord_eq_addVImm hrow, wordX_encodeWord_addVImm, wordNn_encodeWord_addVImm]
  | ldI nnn => rw [decodeWord_eq_ldI hrow, wordNnn_encodeWord_ldI]
  | drw x y n => rw [decodeWord_eq_drw hrow, wordX_encodeWord_drw, wordY_encodeWord_drw, wordN_encodeWord_drw]
  | defaultNop w => exact (decodeWord_eq_defaultNop_iff _ _).mpr ⟨rfl, (defaultNop_wf_iff w).mp hi⟩

theorem decodeBytes_encode_append (i : Instr) (rest : List Byte) :
    decodeBytes (encode i ++ rest) = .ok (decodeWord (encodeWord i), rest) := rfl

theorem encode_decode (b1 b2 : Byte) : encode (decode b1 b2) = [b1, b2] := by
  rw [encode, ← decodeWord_wordOf, encodeWord_decodeWord, highByte_wordOf, lowByte_wordOf]

end Sys2Proof

namespace Sys2Proof.Machine

/-! The image of a listing (R65). -/

theorem assemble_instr_cons (i : Instr) (is : List Instr) :
    assemble ((i :: is).map .instr) = encode i ++ assemble (is.map .instr) := rfl

theorem disassemble_encode_append (i : Instr) (rest : List Byte) :
    disassemble (encode i ++ rest) = decodeWord (encodeWord i) :: disassemble rest := rfl

theorem length_assemble_instr (is : List Instr) : (assemble (is.map .instr)).length = 2 * is.length := by
  induction is with
  | nil => rfl
  | cons i is ih =>
    have hi : (encode i).length = 2 := rfl
    rw [assemble_instr_cons, List.length_append, ih, hi, List.length_cons]
    omega

theorem disassemble_assemble {is : List Instr} (h : ∀ i ∈ is, i.wf = true) :
    disassemble (assemble (is.map .instr)) = is := by
  induction is with
  | nil => rfl
  | cons i is ih =>
    obtain ⟨hi, his⟩ := List.forall_mem_cons.mp h
    rw [assemble_instr_cons, disassemble_encode_append, decodeWord_encodeWord hi, ih his]

/-! The statements. -/

/-- Settles O1: the two bytes of an instruction make up its word, and the word decodes by its row and its fields. -/
theorem decodeOfEncodeIsIdentity : Obligations.DecodeOfEncodeIsIdentity := by
  intro i rest hi
  rw [decodeBytes_encode_append, decodeWord_encodeWord hi]

/-- Settles O2, with the instruction that the two bytes dispatch to. -/
theorem everyWordDecodesAndEncodesBack : Obligations.EveryWordDecodesAndEncodesBack := fun b1 b2 _ =>
  ⟨decode b1 b2, rfl, dispatch_wf _, encode_decode b1 b2⟩

/-- Settles O3: a word matches the row of the instruction it decodes to, and no two supported rows share a word. -/
theorem wordSelectsTheOnePatternItMatches : Obligations.WordSelectsTheOnePatternItMatches :=
  ⟨fun w => ⟨decodeWord_eq_nop_iff w, decodeWord_eq_cls_iff w, exists_decodeWord_eq_jp_iff w,
    exists_decodeWord_eq_ldVImm_iff w, exists_decodeWord_eq_addVImm_iff w, exists_decodeWord_eq_ldI_iff w,
    exists_decodeWord_eq_drw_iff w⟩,
  fun _ _ hp _ hq => supportedPatterns_disjoint hp hq⟩

/-- Settles O4: a word decodes to the default arm when its row is none of the seven. -/
theorem defaultArmHoldsExactlyTheOtherWords : Obligations.DefaultArmHoldsExactlyTheOtherWords :=
  decodeWord_eq_defaultNop_iff

/-- Settles O5: a word is the encoding of what it decodes to, so its fields are that instruction's operands. -/
theorem operandsAreTheFieldsOfTheWord : Obligations.OperandsAreTheFieldsOfTheWord := fun _ =>
  ⟨decodeWord_eq_jp, decodeWord_eq_ldVImm, decodeWord_eq_addVImm, decodeWord_eq_ldI, decodeWord_eq_drw⟩

/-- Settles O7, by induction over the listing: each instruction is two bytes that decode to it. -/
theorem assembledInstructionsReadBack : Obligations.AssembledInstructionsReadBack := fun is h =>
  ⟨disassemble_assemble h, length_assemble_instr is⟩

end Sys2Proof.Machine
end

section
/-! SUPPORT. The proofs of the statements about the cycle (spec/40_cycle.md): the fetch, the step and its frame, and
runs of the port. -/

namespace Sys2Proof.Machine

/-! The fetch and the step. -/

@[simp] theorem State.fetch_fst (s : State) : s.fetch.1 = s.readMem (fetchAddr s.pc) := rfl

@[simp] theorem State.fetch_snd (s : State) : s.fetch.2 = s.setPc (nextPc s.pc) := rfl

/-- For a PC in range the two bytes decoded are those at PC and at PC + 1 mod 4096 (spec/40_cycle.md R68, R71). -/
theorem step_eq_exec_decode {s : State} (hs : s.PcInRange) :
    step s = exec (decode (s.readMem (BitVec.ofNat 12 s.pc.toNat))
      (s.readMem (BitVec.ofNat 12 ((s.pc.toNat + 1) % 4096)))) (s.setPc s.postFetchPc) := by
  rw [step_eq_exec, fetchAddr_of_inRange hs, fetchAddr_nextPc]

/-- An unsupported word decodes to the default arm, which leaves the state as the fetches did (spec/40_cycle.md R74). -/
theorem step_of_not_isSupported {s : State} (hs : s.PcInRange) (hw : isSupported s.wordAtPc = false) :
    step s = .next (s.setPc s.postFetchPc) := by
  rw [step_eq_exec_decodeWord hs, (decodeWord_eq_defaultNop_iff _ _).mpr ⟨rfl, hw⟩]
  exact exec_eq_next_iff.mpr (.defaultNop _)

/-! Runs of the port. -/

@[simp] theorem runFrames_nil {Keys : Type} (s : State) : runFrames ([] : List Keys) s = .next (s, []) := rfl

/-- A run whose first step leaves t returns t's display, then the frames of the rest of the run. -/
theorem runFrames_cons_of_step {Keys : Type} (keys : Keys) {rest : List Keys} {s t u : State} {frames : List Frame}
    (hstep : step s = .next t) (hrest : runFrames rest t = .next (u, frames)) :
    runFrames (keys :: rest) s = .next (u, t.disp :: frames) := by
  simp only [runFrames, stepPort_of_step keys hstep, hrest]

/-- Frame j is the display as step j + 1 of the run from s leaves it (spec/40_cycle.md R72). -/
def FramesFollowRun (s : State) (frames : List Frame) : Prop :=
  ∀ j, j < frames.length → ∃ u : State, Sys2Proof.core.run (j + 1) s = .next u ∧ frames[j]? = some u.disp

theorem FramesFollowRun.nil (s : State) : FramesFollowRun s [] := fun j hj => absurd hj (Nat.not_lt_zero j)

theorem FramesFollowRun.cons {s t : State} {frames : List Frame} (hstep : step s = .next t)
    (h : FramesFollowRun t frames) : FramesFollowRun s (t.disp :: frames) := by
  intro j hj
  cases j with
  | zero => exact ⟨t, by rw [run_succ_of_step hstep, run_zero], rfl⟩
  | succ j =>
    obtain ⟨u, hrun, hframe⟩ := h j (Nat.lt_of_succ_lt_succ hj)
    exact ⟨u, by rw [run_succ_of_step hstep, hrun], hframe⟩

/-- Every run of the port completes, in the state of the run of as many steps, with one frame for each of them. -/
theorem exists_runFrames {Keys : Type} (keys : List Keys) (s : State) : ∃ (t : State) (frames : List Frame),
    runFrames keys s = .next (t, frames) ∧ Sys2Proof.core.run keys.length s = .next t ∧
    frames.length = keys.length ∧ FramesFollowRun s frames := by
  induction keys generalizing s with
  | nil => exact ⟨s, [], runFrames_nil s, run_zero s, rfl, .nil s⟩
  | cons k rest ih =>
    obtain ⟨t, hstep⟩ := exists_step s
    obtain ⟨u, frames, hframes, hrun, hlen, hfollow⟩ := ih t
    refine ⟨u, t.disp :: frames, runFrames_cons_of_step k hstep hframes, ?_, ?_, hfollow.cons hstep⟩
    · rw [List.length_cons, run_succ_of_step hstep, hrun]
    · rw [List.length_cons, List.length_cons, hlen]

/-- The port does not read the keys (spec/40_cycle.md R75): as many of any type give the same run. -/
theorem runFrames_eq_of_length_eq {Keys Keys' : Type} {keys : List Keys} {keys' : List Keys'}
    (hlen : keys.length = keys'.length) (s : State) : runFrames keys s = runFrames keys' s := by
  induction keys generalizing keys' s with
  | nil =>
    obtain rfl := List.length_eq_zero_iff.mp hlen.symm
    rw [runFrames_nil, runFrames_nil]
  | cons k rest ih =>
    obtain ⟨k', rest', rfl⟩ := List.exists_cons_of_length_eq_add_one hlen.symm
    obtain ⟨t, hstep⟩ := exists_step s
    obtain ⟨u, frames, hframes, -⟩ := exists_runFrames rest t
    have hframes' := (ih (Nat.succ.inj hlen) t).symm.trans hframes
    rw [runFrames_cons_of_step k hstep hframes, runFrames_cons_of_step k' hstep hframes']

/-! The statements. -/

/-- Settles O10: some instruction is executed, every instruction answers a next state, and the port its display. -/
theorem everyStepCompletes : Obligations.EveryStepCompletes := by
  intro s Keys keys _
  obtain ⟨t, hstep⟩ := exists_step s
  exact ⟨t, hstep, stepPort_of_step keys hstep⟩

/-- Settles O12, by induction over the key inputs: a step puts its display before the frames of the rest. -/
theorem eachFrameIsTheDisplayAfterItsStep : Obligations.EachFrameIsTheDisplayAfterItsStep := by
  intro Keys keys s _
  obtain ⟨t, frames, hframes, hrun, hlen, hfollow⟩ := exists_runFrames keys s
  exact ⟨t, frames, hframes, hrun, hlen, hlen ▸ hfollow⟩

/-- Settles O13, by induction over both lists of key inputs at once. -/
theorem runsDoNotDependOnTheKeys : Obligations.RunsDoNotDependOnTheKeys := fun _ _ _ _ s hlen =>
  runFrames_eq_of_length_eq hlen s

/-- Settles O48: the word decodes to the default arm, and PC is past it after the fetches. -/
theorem otherWordsStepAsNoOps : Obligations.OtherWordsStepAsNoOps := by
  intro s Keys keys hpc hw
  have hstep := step_of_not_isSupported hpc hw
  exact ⟨hstep, stepPort_of_step keys hstep⟩

/-- Settles O8: the fetch reads at PC and then writes PC alone. -/
theorem fetchReadsThenAdvances : Obligations.FetchReadsThenAdvances := by
  intro s hpc
  rw [State.fetch_fst, State.fetch_snd, fetchAddr_of_inRange hpc]
  exact ⟨rfl, nextPc_toNat s.pc, fun x _ => s.setPc_readReg _ x, s.setPc_i _,
    ⟨s.setPc_sp _, s.setPc_dt _, s.setPc_st _⟩, s.setPc_readMem _, s.setPc_pixel _⟩

/-- Settles O9: the two bytes fetched are those at PC and PC + 1 mod 4096, and the port's frame is the display. -/
theorem stepRunsTheDecodedInstruction : Obligations.StepRunsTheDecodedInstruction := by
  rintro s _ _ _ hpc rfl rfl rfl
  have hstep := step_eq_exec_decode hpc
  exact ⟨hstep, fun Keys keys t ht => stepPort_of_step keys (hstep.trans ht)⟩

/-- Settles O32, by what each of the two leaves. -/
theorem nopAndDefaultArmChangeNothing : Obligations.NopAndDefaultArmChangeNothing := fun _ w =>
  ⟨exec_eq_next_iff.mpr .nop, exec_eq_next_iff.mpr (.defaultNop w)⟩

end Sys2Proof.Machine
end

section
/-! SUPPORT. The proofs of the statements about control and arithmetic (spec/41_control_arith.md): JP, LD Vx, ADD Vx and
LD I on the state after the fetches, and these and NOP as whole steps from the word at PC. -/

namespace Sys2Proof.Machine

/-! The operands as numbers. -/

theorem addMod256_toNat (a b : Byte) : (addMod256 a b).toNat = (a.toNat + b.toNat) % 256 := by
  rw [addMod256, BitVec.toNat_ofNat, Nat.mod_mod]

theorem zext16_wordNnn (w : Word) : zext16 (wordNnn w) = BitVec.ofNat 16 (w.toNat % 4096) := by
  apply BitVec.eq_of_toNat_eq
  rw [zext16_toNat, wordNnn_toNat, BitVec.toNat_ofNat]
  omega

/-! What a write of a register, of I or of PC leaves unchanged (R78). -/

@[simp] theorem State.setPc_setPc (s : State) (w w' : Word) : (s.setPc w).setPc w' = s.setPc w' := rfl

@[simp] theorem State.setPc_self (s : State) : s.setPc s.pc = s := rfl

theorem State.setPc_frame (s : State) (w : Word) :
    SameRegsBut [] s (s.setPc w) ∧ (s.setPc w).i = s.i ∧ SameInert s (s.setPc w) ∧ SameMemory s (s.setPc w) ∧
      SameDisplay s (s.setPc w) :=
  ⟨fun r _ => s.setPc_readReg w r, s.setPc_i w, ⟨s.setPc_sp w, s.setPc_dt w, s.setPc_st w⟩, s.setPc_readMem w,
    s.setPc_pixel w⟩

theorem State.setI_frame (s : State) (w : Word) :
    SameRegsBut [] s (s.setI w) ∧ (s.setI w).pc = s.pc ∧ SameInert s (s.setI w) ∧ SameMemory s (s.setI w) ∧
      SameDisplay s (s.setI w) :=
  ⟨fun r _ => s.setI_readReg w r, s.setI_pc w, ⟨s.setI_sp w, s.setI_dt w, s.setI_st w⟩, s.setI_readMem w,
    s.setI_pixel w⟩

theorem State.writeReg_frame (s : State) (x : RegIdx) (b : Byte) :
    SameRegsBut [x] s (s.writeReg x b) ∧ (s.writeReg x b).i = s.i ∧ (s.writeReg x b).pc = s.pc ∧
      SameInert s (s.writeReg x b) ∧ SameMemory s (s.writeReg x b) ∧ SameDisplay s (s.writeReg x b) :=
  ⟨fun _ hr => s.writeReg_readReg_of_ne (List.ne_of_not_mem_cons hr) b, s.writeReg_i x b, s.writeReg_pc x b,
    ⟨s.writeReg_sp x b, s.writeReg_dt x b, s.writeReg_st x b⟩, s.writeReg_readMem x b, s.writeReg_pixel x b⟩

/-! The state a step leaves, its operands read off the word at PC. -/

section

variable {s : State}

/-- A step leaves what the instruction that the word at PC decodes to leaves, executed with PC past the word. -/
theorem step_eq_next_of_executes {t : State} {i : Instr} (hs : s.PcInRange) (hi : decodeWord s.wordAtPc = i)
    (hex : Executes (s.setPc s.postFetchPc) i t) : step s = .next t := by
  rw [step_eq_exec_decodeWord hs, hi]
  exact exec_eq_next_iff.mpr hex

theorem step_of_nop_word (hs : s.PcInRange) (hw : s.wordAtPc = 0x0000) : step s = .next (s.setPc s.postFetchPc) :=
  step_eq_next_of_executes hs ((decodeWord_eq_nop_iff _).mpr ((matchesPattern_exact _ _).mpr hw)) .nop

theorem step_of_jp_word (hs : s.PcInRange) (hw : matchesPattern s.wordAtPc (0xF000, 0x1000) = true) :
    step s = .next (s.setPc (BitVec.ofNat 16 (s.wordAtPc.toNat % 4096))) := by
  rw [step_eq_next_of_executes hs (decodeWord_eq_jp hw) (.jp _), State.setPc_setPc, zext16_wordNnn]

theorem step_of_ldVImm_word (hs : s.PcInRange) (hw : matchesPattern s.wordAtPc (0xF000, 0x6000) = true) :
    step s = .next ((s.setPc s.postFetchPc).writeReg (wordX s.wordAtPc) (wordNn s.wordAtPc)) :=
  step_eq_next_of_executes hs (decodeWord_eq_ldVImm hw) (.ldVImm _ _)

theorem step_of_addVImm_word (hs : s.PcInRange) (hw : matchesPattern s.wordAtPc (0xF000, 0x7000) = true) :
    step s = .next ((s.setPc s.postFetchPc).writeReg (wordX s.wordAtPc)
      (addMod256 (s.readReg (wordX s.wordAtPc)) (wordNn s.wordAtPc))) :=
  step_eq_next_of_executes hs (decodeWord_eq_addVImm hw) (.addVImm _ _)

theorem step_of_ldI_word (hs : s.PcInRange) (hw : matchesPattern s.wordAtPc (0xF000, 0xA000) = true) :
    step s = .next ((s.setPc s.postFetchPc).setI (zext16 (wordNnn s.wordAtPc))) :=
  step_eq_next_of_executes hs (decodeWord_eq_ldI hw) (.ldI _)

/-- Whatever a step of an add word leaves, V[x] in it is the sum modulo 256 (R82). -/
theorem readReg_toNat_of_step_addVImm_word {t : State} (hs : s.PcInRange)
    (hw : matchesPattern s.wordAtPc (0xF000, 0x7000) = true) (hstep : step s = .next t) :
    (t.readReg (wordX s.wordAtPc)).toNat =
      ((s.readReg (wordX s.wordAtPc)).toNat + s.wordAtPc.toNat % 256) % 256 := by
  rw [step_of_addVImm_word hs hw, Host.Outcome.next.injEq] at hstep
  rw [← hstep, State.writeReg_readReg_same, addMod256_toNat, wordNn_toNat]

end

/-! The statements. -/

/-- Settles O42: the jump's write of PC replaces the fetches', and at its own address it restores PC. -/
theorem jumpWordSetsPcToItsAddress : Obligations.JumpWordSetsPcToItsAddress := by
  intro s hpc hw
  have hstep := step_of_jp_word hpc hw
  refine ⟨hstep, fun hself => ?_⟩
  rw [hstep, hself, BitVec.ofNat_toNat, BitVec.setWidth_eq, State.setPc_self]

/-- Settles O43, by the one register that the step writes after the fetches. -/
theorem loadWordWritesItsImmediate : Obligations.LoadWordWritesItsImmediate := by
  intro s hpc hw
  obtain ⟨hregs, hi, hpc', hinert, hmem, hdisp⟩ :=
    (s.setPc s.postFetchPc).writeReg_frame (wordX s.wordAtPc) (wordNn s.wordAtPc)
  exact ⟨_, step_of_ldVImm_word hpc hw, State.writeReg_readReg_same .., hregs, hpc', hi, hinert, hmem, hdisp⟩

/-- Settles O44: the sum of one step is an operand of the next, and the reduction in between changes nothing. -/
theorem addWordAddsModulo256 : Obligations.AddWordAddsModulo256 := by
  intro s hpc hw
  have hstep := step_of_addVImm_word hpc hw
  have hsum := readReg_toNat_of_step_addVImm_word hpc hw hstep
  obtain ⟨hregs, hi, hpc', hinert, hmem, hdisp⟩ :=
    (s.setPc s.postFetchPc).writeReg_frame (wordX s.wordAtPc)
      (addMod256 (s.readReg (wordX s.wordAtPc)) (wordNn s.wordAtPc))
  refine ⟨_, hstep, hsum, hregs, hpc', hi, hinert, hmem, hdisp, fun hw' hx => ?_⟩
  refine (exists_step _).imp fun u hstep' => ⟨hstep', ?_⟩
  have hsum' := readReg_toNat_of_step_addVImm_word (step_pcInRange hstep) hw' hstep'
  rwa [hx, hsum, Nat.mod_add_mod] at hsum'

/-- Settles O45, by what the write of I after the fetches leaves. -/
theorem indexWordSetsI : Obligations.IndexWordSetsI := by
  intro s hpc hw
  obtain ⟨hregs, hpc', hinert, hmem, hdisp⟩ :=
    (s.setPc s.postFetchPc).setI_frame (zext16 (wordNnn s.wordAtPc))
  refine ⟨_, step_of_ldI_word hpc hw, ?_, hpc', hregs, hinert, hmem, hdisp⟩
  rw [State.setI_i, zext16_toNat, wordNnn_toNat]

/-- Settles O33, by what a write of PC leaves. -/
theorem jpWritesOnlyPc : Obligations.JpWritesOnlyPc := fun nnn s =>
  ⟨_, exec_eq_next_iff.mpr (.jp nnn), zext16_toNat nnn, s.setPc_frame _⟩

/-- Settles O34, by what a write of I leaves. -/
theorem ldIWritesOnlyI : Obligations.LdIWritesOnlyI := fun nnn s =>
  ⟨_, exec_eq_next_iff.mpr (.ldI nnn), zext16_toNat nnn, s.setI_frame _⟩

/-- Settles O35, by what a write of V[x] leaves. -/
theorem ldAndAddWriteOnlyVx : Obligations.LdAndAddWriteOnlyVx := by
  intro x nn s
  refine ⟨⟨_, exec_eq_next_iff.mpr (.ldVImm x nn), s.writeReg_readReg_same x nn, s.writeReg_frame x nn⟩,
    ⟨_, exec_eq_next_iff.mpr (.addVImm x nn), ?_, s.writeReg_frame x _⟩⟩
  rw [State.writeReg_readReg_same, addMod256_toNat]

/-- Settles O41: 0x0000 is the word of NOP. -/
theorem zeroWordStepsAsNop : Obligations.ZeroWordStepsAsNop := fun _ => step_of_nop_word

end Sys2Proof.Machine
end

section
/-! SUPPORT. The proofs of the statements about the display (spec/42_display.md): CLS and DRW on the state after the
fetches and as whole steps from the word at PC, and the double draw of R92. -/

namespace Sys2Proof.Machine

/-! Where the pixels of a sprite land (R91): the 8 columns are fewer than 64 and the rows fewer than 32. -/

theorem landingRow_inj {k k' oy : Nat} (hk : k < 32) (hk' : k' < 32) (h : landingRow k oy = landingRow k' oy) :
    k = k' := by
  have hval : (k + oy) % 32 = (k' + oy) % 32 := Fin.mk.inj h
  omega

theorem landingCol_inj {j j' ox : Nat} (hj : j < 64) (hj' : j' < 64) (h : landingCol j ox = landingCol j' ox) :
    j = j' := by
  have hval : (j + ox) % 64 = (j' + ox) % 64 := Fin.mk.inj h
  omega

/-! What CLS and DRW leave unchanged. -/

theorem State.clearDisplay_frame (s : State) :
    SameRegsBut [] s s.clearDisplay ∧ s.clearDisplay.i = s.i ∧ s.clearDisplay.pc = s.pc ∧
      SameInert s s.clearDisplay ∧ SameMemory s s.clearDisplay :=
  ⟨fun r _ => s.clearDisplay_readReg r, s.clearDisplay_i, s.clearDisplay_pc,
    ⟨s.clearDisplay_sp, s.clearDisplay_dt, s.clearDisplay_st⟩, s.clearDisplay_readMem⟩

theorem Executes.drw_frame {s t : State} {x y : RegIdx} {n : Height} (h : Executes s (.drw x y n) t) :
    SameRegsBut [15] s t ∧ t.i = s.i ∧ t.pc = s.pc ∧ SameInert s t ∧ SameMemory s t := by
  refine ⟨fun r hr => ?_, h.i_eq_or_ldI.resolve_right (by simp), h.pc_eq_or_jp.resolve_right (by simp), h.sameInert,
    h.sameMemory⟩
  have hr' : r ≠ flagReg := List.ne_of_not_mem_cons hr
  exact (h.readReg_eq_or_writes r).resolve_right (by simp [hr'])

/-! The same draw twice (R92): the second draw meets the same sprite, and XORs it out again. -/

/-- The bits of a sprite depend on I and memory alone. -/
theorem spriteBitAt_congr {s t : State} (hi : t.i = s.i) (hmem : SameMemory s t) (ox oy n : Nat) :
    SpriteBitAt t ox oy n = SpriteBitAt s ox oy n := by
  funext r c p
  simp only [SpriteBitAt, hi, hmem _]

theorem Drawn.flag_eq_one_iff {s t : State} {ox oy n : Nat} (h : Drawn s t ox oy n) :
    t.readReg flagReg = 1 ↔ ∃ r c, s.pixel r c = true ∧ SpriteBitAt s ox oy n r c true := by
  obtain ⟨-, -, hhit, hno⟩ := h
  refine ⟨fun hflag => ?_, hhit⟩
  by_contra hc
  exact absurd (hflag.symm.trans (hno hc)) (by decide)

section

variable {s t u : State} {ox oy n : Nat}

theorem Drawn.sameDisplay_of_same_bits (hst : Drawn s t ox oy n) (htu : Drawn t u ox oy n)
    (hbits : SpriteBitAt t ox oy n = SpriteBitAt s ox oy n) : SameDisplay s u := by
  obtain ⟨hland, hmiss, -, -⟩ := hst
  obtain ⟨hland', hmiss', -, -⟩ := htu
  rw [hbits] at hland' hmiss'
  intro r c
  by_cases hbit : ∃ p, SpriteBitAt s ox oy n r c p
  · obtain ⟨p, hp⟩ := hbit
    rw [hland' r c p hp, hland r c p hp, Bool.xor_assoc, Bool.xor_self, Bool.xor_false]
  · rw [hmiss' r c (not_exists.mp hbit), hmiss r c (not_exists.mp hbit)]

/-- A set bit meets a set pixel in the second draw exactly where it met an unset one in the first. -/
theorem Drawn.flag_eq_one_iff_of_same_bits (hst : Drawn s t ox oy n) (htu : Drawn t u ox oy n)
    (hbits : SpriteBitAt t ox oy n = SpriteBitAt s ox oy n) :
    u.readReg flagReg = 1 ↔ ∃ r c, s.pixel r c = false ∧ SpriteBitAt s ox oy n r c true := by
  obtain ⟨hland, -, -, -⟩ := hst
  rw [htu.flag_eq_one_iff, hbits]
  refine exists₂_congr fun r c => and_congr_left fun hbit => ?_
  rw [hland r c true hbit, Bool.xor_true, Bool.not_eq_true']

end

/-- The second of two draws with x and y other than 15 has the origin and the sprite of the first. -/
theorem Executes.drawn_again {s t u : State} {x y : RegIdx} {n : Height} (hx : x ≠ 15) (hy : y ≠ 15)
    (hst : Executes s (.drw x y n) t) (htu : Executes t (.drw x y n) u) :
    Drawn t u ((s.readReg x).toNat % 64) ((s.readReg y).toNat % 32) n.val := by
  obtain ⟨hregs, -⟩ := hst.drw_frame
  rw [← hregs x (by simpa using hx), ← hregs y (by simpa using hy)]
  exact htu.drawn

/-! The state a step leaves, from the word at PC. -/

section

variable {s : State}

theorem step_of_cls_word (hs : s.PcInRange) (hw : s.wordAtPc = 0x00E0) :
    step s = .next (s.setPc s.postFetchPc).clearDisplay :=
  step_eq_next_of_executes hs ((decodeWord_eq_cls_iff _).mpr ((matchesPattern_exact _ _).mpr hw)) .cls

theorem step_of_drw_word (hs : s.PcInRange) (hw : matchesPattern s.wordAtPc (0xF000, 0xD000) = true) :
    ∃ t, step s = .next t ∧
      Executes (s.setPc s.postFetchPc) (.drw (wordX s.wordAtPc) (wordY s.wordAtPc) (wordN s.wordAtPc)) t :=
  ⟨_, step_eq_next_of_executes hs (decodeWord_eq_drw hw) (.drw _ _ _), .drw _ _ _⟩

/-- A draw does not read PC. -/
theorem drawn_setPc_iff {t : State} {w : Word} {ox oy n : Nat} : Drawn (s.setPc w) t ox oy n ↔ Drawn s t ox oy n :=
  Iff.rfl

end

/-! The statements. -/

/-- Settles O38, by Executes.drawn: an induction over the rows of the sprite and the pixels of a row. -/
theorem drwXorsTheSpriteIntoTheDisplay : Obligations.DrwXorsTheSpriteIntoTheDisplay := by
  intro x y n s
  obtain ⟨t, ht, hex⟩ := exec_executes (.drw x y n) s
  exact ⟨t, ht, hex.drawn⟩

/-- Settles O40: the first draw writes neither its origin nor its sprite, and XOR with one bit twice changes nothing. -/
theorem drawingTwiceRestoresTheDisplay : Obligations.DrawingTwiceRestoresTheDisplay := by
  intro x y n s hx hy
  obtain ⟨t, ht, hst⟩ := exec_executes (.drw x y n) s
  obtain ⟨u, hu, htu⟩ := exec_executes (.drw x y n) t
  have hagain := hst.drawn_again hx hy htu
  obtain ⟨-, hi, -, -, hmem⟩ := hst.drw_frame
  have hbits := spriteBitAt_congr hi hmem ((s.readReg x).toNat % 64) ((s.readReg y).toNat % 32) n.val
  exact ⟨t, u, ht, hu, hst.drawn.sameDisplay_of_same_bits hagain hbits,
    hst.drawn.flag_eq_one_iff_of_same_bits hagain hbits, hagain.flag_eq_zero_or_one⟩

/-- Settles O47: the word decodes to DRW of its fields, and the fetches touch nothing that a draw reads. -/
theorem drawWordDrawsItsSprite : Obligations.DrawWordDrawsItsSprite := by
  intro s hpc hw
  obtain ⟨t, hstep, hex⟩ := step_of_drw_word hpc hw
  obtain ⟨hregs, hi, hpc', hinert, hmem⟩ := hex.drw_frame
  exact ⟨t, hstep, drawn_setPc_iff.mp hex.drawn, hpc', hregs, hi, hinert, hmem⟩

/-- Settles O36, by what clearing the display leaves. -/
theorem clsWritesOnlyTheDisplay : Obligations.ClsWritesOnlyTheDisplay := fun s =>
  ⟨_, exec_eq_next_iff.mpr .cls, s.clearDisplay_pixel, s.clearDisplay_frame⟩

/-- Settles O39: distinct sprite rows land on distinct display rows, and likewise the columns. -/
theorem noPixelIsDrawnTwiceInOneDraw : Obligations.NoPixelIsDrawnTwiceInOneDraw := by
  intro k k' j j' ox oy hk hk' hj hj' hrow hcol
  exact ⟨landingRow_inj (by omega) (by omega) hrow, landingCol_inj (by omega) (by omega) hcol⟩

/-- Settles O46: 0x00E0 is the word of CLS, and no supported pattern matches one of the neighbours. -/
theorem clearWordUnsetsEveryPixel : Obligations.ClearWordUnsetsEveryPixel := by
  intro s hpc
  refine ⟨fun hw => ?_, fun hw => step_of_not_isSupported hpc ?_⟩
  · obtain ⟨hregs, hi, hpc', hinert, hmem⟩ := (s.setPc s.postFetchPc).clearDisplay_frame
    exact ⟨_, step_of_cls_word hpc hw, State.clearDisplay_pixel _, hpc', hregs, hi, hinert, hmem⟩
  · rcases hw with hw | hw | hw <;> rw [hw] <;> decide

end Sys2Proof.Machine
end

section
/-! SUPPORT. The proofs of the statements about reset, load and launch and about runs without end
(spec/70_reset_and_hazards.md). -/

namespace Sys2Proof.Machine

/-! Runs of any length. -/

/-- A run of any length reaches a state, for every step does (R124). -/
theorem exists_run (k : Nat) (s : State) : ∃ t : State, Sys2Proof.core.run k s = .next t := by
  induction k generalizing s with
  | zero => exact ⟨s, run_zero s⟩
  | succ k ih =>
    obtain ⟨u, hu⟩ := exists_step s
    rw [run_succ_of_step hu]
    exact ih u

/-! The load: when it answers a state (R115), and what storing an image leaves unchanged (R116). -/

/-- The load onto any state; `launch_eq_next_iff` is the case of the reset state. -/
theorem load_eq_next_iff {image : List Byte} {s t : State} :
    load image s = .next t ↔ image.length ≤ 3584 ∧ s.storeFrom 0x200 image = t := by
  rw [load]
  split_ifs with h
  · exact iff_of_false (fun h => nomatch h) fun ⟨hfit, _⟩ => absurd hfit (not_le.mpr h)
  · rw [Host.Outcome.next.injEq]
    exact (and_iff_right (not_lt.mp h)).symm

theorem State.storeFrom_frame (s : State) (base : Nat) (image : List Byte) :
    SameRegsBut [] s (s.storeFrom base image) ∧ (s.storeFrom base image).i = s.i ∧ (s.storeFrom base image).pc = s.pc ∧
      SameInert s (s.storeFrom base image) ∧ SameDisplay s (s.storeFrom base image) :=
  ⟨fun x _ => s.storeFrom_readReg base image x, s.storeFrom_i base image, s.storeFrom_pc base image,
    ⟨s.storeFrom_sp base image, s.storeFrom_dt base image, s.storeFrom_st base image⟩, s.storeFrom_pixel base image⟩

/-- Storing bytes keeps the invariant: it writes memory alone, and memory stays canonical (log 15). -/
theorem State.storeFrom_inv {s : State} (hs : s.Inv) (base : Nat) (image : List Byte) :
    (s.storeFrom base image).Inv := by
  obtain ⟨hpc, hi, hinert, hmem⟩ := hs
  obtain ⟨-, hi', hpc', hinert', -⟩ := s.storeFrom_frame base image
  refine ⟨?_, ?_, State.inertAtReset_of_sameInert hinert hinert', State.storeFrom_wf hmem base image⟩
  · rwa [State.PcInRange, hpc']
  · rwa [State.IndexInRange, hi']

/-- The entry point of a launch (R113). -/
theorem launch_pc {image : List Byte} {u : State} (h : launch image = .next u) : u.pc = 0x200 := by
  obtain ⟨-, rfl⟩ := launch_eq_next_iff.mp h
  rw [State.storeFrom_pc, State.reset_pc]

/-! The statements. -/

/-- Settles O11: every step answers a next state, so by induction over its length every run does. -/
theorem theCoreNeverStopsByItself : Obligations.TheCoreNeverStopsByItself := fun s k _ => exists_run k s

/-- Settles O16: reset meets the invariant, and storing the image keeps it. -/
theorem everyLaunchMeetsTheInvariant : Obligations.EveryLaunchMeetsTheInvariant := by
  intro image t h
  obtain ⟨-, rfl⟩ := launch_eq_next_iff.mp h
  exact State.storeFrom_inv resetMeetsTheInvariant 0x200 image

/-- Settles O19: an image that fits ends at or below 4096, so each of its bytes is stored at an address of its own. -/
theorem loadCopiesTheImage : Obligations.LoadCopiesTheImage := by
  intro image s hs
  refine ⟨fun hlong ⟨t, ht⟩ => ?_, fun hfit => ?_⟩
  · obtain ⟨hfit, -⟩ := load_eq_next_iff.mp ht
    exact absurd hfit (not_le.mpr hlong)
  · have hend : 0x200 + image.length ≤ 4096 := by omega
    exact ⟨_, load_eq_next_iff.mpr ⟨hfit, rfl⟩, fun k hk => State.storeFrom_readMem_getElem hs hend hk,
      fun a ha => State.storeFrom_readMem_of_not_mem hs hend ha, s.storeFrom_frame 0x200 image⟩

/-- Settles O20, by when a launch answers a state. -/
theorem onlyImagesThatFitLaunch : Obligations.OnlyImagesThatFitLaunch := fun _ =>
  ⟨fun ⟨_, ht⟩ => (launch_eq_next_iff.mp ht).left, fun hfit => ⟨_, launch_eq_next_iff.mpr ⟨hfit, rfl⟩⟩⟩

/-- Settles O22: PC is 0x200 at launch, so the two fetches read at 0x200 and 0x201 and leave PC at 0x202. -/
theorem firstStepRunsTheEntryPoint : Obligations.FirstStepRunsTheEntryPoint := by
  intro image u h
  have hpc : u.pc = 0x200 := launch_pc h
  have hrange : u.PcInRange := by rw [State.PcInRange, hpc]; decide
  refine ⟨hpc, ?_⟩
  rw [step_eq_exec_decode hrange, State.postFetchPc, hpc]
  rfl

end Sys2Proof.Machine
end

section
/-! SUPPORT. The sample words of spec/95_test_vectors.md, each read as the well-formed instruction with its two bytes. -/

namespace Sys2Proof

/-- Two bytes decode to the one well-formed instruction whose encoding they are (R55, R66). -/
theorem decode_eq_iff (b1 b2 : Byte) (i : Instr) : decode b1 b2 = i ↔ i.wf = true ∧ encode i = [b1, b2] := by
  constructor
  · rintro rfl
    exact ⟨dispatch_wf _, encode_decode b1 b2⟩
  · rintro ⟨hi, henc⟩
    obtain ⟨rfl, rfl⟩ : highByte (encodeWord i) = b1 ∧ lowByte (encodeWord i) = b2 := by simpa [encode] using henc
    exact decodeWord_encodeWord hi

/-- Settles O6: each instruction is well formed, and its two bytes are those of the sample word. -/
theorem sampleWordsDecodeAsTheSpecReadsThem : Obligations.SampleWordsDecodeAsTheSpecReadsThem := by
  unfold Obligations.SampleWordsDecodeAsTheSpecReadsThem
  simp only [decode_eq_iff]
  decide

end Sys2Proof
end
